-- ==== Sys2Proof/Word.lean ====
section
/-! DEFINITION. The machine's one datum: the 32-bit word (R6, R12). -/

namespace Sys2Proof

/-- A word: 32 bits, bit 31 most significant (R6).
Memory cells, stack cells, literals and opcode words are all words (R5, `WORD_BITS`). -/
abbrev Word := BitVec 32

end Sys2Proof
end

