-- ==== Sys2Proof/Machine/Words.lean ====
section
/-! DEFINITION. Integer readings of a word and the value functions of the arithmetic and bitwise instructions (R6, R12, R13, 44_arithmetic.md, 46_bitwise_shift.md). -/

namespace Sys2Proof.Machine

/-- The signed reading of a word (R6). -/
def s32 (w : Word) : Int := w.toInt

/-- The word whose unsigned value is `z mod 2^32` (R6). -/
def wrap32 (z : Int) : Word := BitVec.ofInt 32 z

/-- A natural number as the word with that value (R12). -/
def zext32 (n : Nat) : Word := BitVec.ofNat 32 n

/-- `tdiv`: the quotient rounded toward zero (R13). -/
def tdiv (x y : Int) : Int := Int.tdiv x y

/-- `trem`: what the truncated quotient leaves (R13). -/
def trem (x y : Int) : Int := x - tdiv x y * y

/-- The value `+` pushes (R160). -/
def addValue (a b : Word) : Word := wrap32 (s32 a + s32 b)

/-- The value `-` pushes: NOS minus TOS (R161). -/
def subValue (a b : Word) : Word := wrap32 (s32 a - s32 b)

/-- The value `*` pushes: the low 32 bits of the signed product (R162). -/
def mulValue (a b : Word) : Word := wrap32 (s32 a * s32 b)

/-- The quotient `/%` pushes (R163). -/
def quotientValue (a b : Word) : Word := wrap32 (tdiv (s32 a) (s32 b))

/-- The remainder `/%` pushes (R163). -/
def remainderValue (a b : Word) : Word := wrap32 (trem (s32 a) (s32 b))

/-- The value `&` pushes (R190). -/
def andValue (a b : Word) : Word := a &&& b

/-- The value `|` pushes (R191). -/
def orValue (a b : Word) : Word := a ||| b

/-- The value `^` pushes (R192). -/
def xorValue (a b : Word) : Word := a ^^^ b

/-- A left shift by `n` places: 0 when `n >= 32` (R193). -/
def shiftLeftValue (a : Word) (n : Nat) : Word :=
  if 32 ≤ n then 0 else wrap32 (s32 a * 2 ^ n)

/-- An arithmetic right shift by `n` places: 0 or -1 by sign when `n >= 32` (R193). -/
def shiftRightValue (a : Word) (n : Nat) : Word :=
  if 32 ≤ n then (if s32 a < 0 then wrap32 (-1) else 0)
  else wrap32 (Int.fdiv (s32 a) (2 ^ n))

/-- The value `shift` pushes: left by a positive count, else right by its magnitude (R193). -/
def shiftValue (a b : Word) : Word :=
  if 0 < s32 b then shiftLeftValue a (s32 b).toNat
  else shiftRightValue a (-(s32 b)).toNat

end Sys2Proof.Machine
end

