-- ==== Sys2Proof/Machine/Flags.lean ====
section
/-! DEFINITION. The machine has no flags (R26): its truth values are data words, made and tested here (R13, R184, R131). -/

namespace Sys2Proof.Machine

/-- `bool(p)`: -1 (all bits set) if `p` holds, else 0 (R13, R184). -/
def boolWord (p : Bool) : Word := if p then wrap32 (-1) else 0

/-- A condition word is true when any of its bits is set (R131). -/
def conditionHolds (c : Word) : Bool := c != 0

/-- The word `==` pushes (R180). -/
def eqValue (a b : Word) : Word := boolWord (a == b)

/-- The word `!=` pushes (R181). -/
def neValue (a b : Word) : Word := boolWord (a != b)

/-- The word `<` pushes: NOS less than TOS, signed (R182). -/
def ltValue (a b : Word) : Word := boolWord (decide (s32 a < s32 b))

/-- The word `>` pushes: NOS greater than TOS, signed (R183). -/
def gtValue (a b : Word) : Word := boolWord (decide (s32 b < s32 a))

end Sys2Proof.Machine
end

