-- ==== Sys2Proof/Config.lean ====
section
/-! DEFINITION. The parameters of R5 (Table P), as plain data: the machine's sizes and its opcode numbering. -/

namespace Sys2Proof

/-- The 32 mnemonics of R84 (Table OP), by the spec's ASCII aliases (R89).
`ret` is the spec's `return`, a word Lean keeps for itself. -/
inductive Op where
  | nop | stop | lit | dup | drop | swap | push | pop
  | jmp | cjmp | call | ccall | ret | fetch | store
  | add | sub | mul | divmod
  | eq | ne | lt | gt
  | and | or | xor | shift
  | syscall0 | syscall1 | syscall2 | syscall3 | syscall4
  deriving DecidableEq, Repr

/-- The parameters of one CORE (R5).
`WORD_BITS` is fixed by `Word`; `CONTEXT` and the bridge are supplied at reset and stand in the state (R29). -/
structure Config where
  /-- `MEM_WORDS`: number of words of memory. -/
  memWords : Nat
  /-- `DS_CAP`: capacity of the data stack in words. -/
  dsCap : Nat
  /-- `RS_CAP`: capacity of the return stack in words. -/
  rsCap : Nat
  /-- `OPCODE_MAP`: the mnemonic at index `v` is the one the opcode value `v` selects (R84, D1). -/
  opcodeMap : List Op
  deriving DecidableEq, Repr

end Sys2Proof
end

