-- ==== Sys2Proof/Syntax.lean ====
section
/-! DEFINITION. The instructions: one constructor per row of spec/opcode_table.json. -/

namespace Sys2Proof

/-- The 32 instructions of R84 (Table OP).
Only `lit` carries an operand, its immediate word (R81, R83); every other operand comes from a stack. -/
inductive Instr where
  | nop
  | stop
  | lit (imm : Word)
  | dup
  | drop
  | swap
  | push
  | pop
  | jmp
  | cjmp
  | call
  | ccall
  | ret
  | fetch
  | store
  | add
  | sub
  | mul
  | divmod
  | eq
  | ne
  | lt
  | gt
  | and
  | or
  | xor
  | shift
  | syscall0
  | syscall1
  | syscall2
  | syscall3
  | syscall4
  deriving DecidableEq, Repr

end Sys2Proof
end

