-- ==== Sys2Proof/WellFormed.lean ====
section
/-! DEFINITION. What makes a parameter set, an instruction and an image well formed. -/

namespace Sys2Proof

/-- The mnemonic of an instruction (R84). -/
def Instr.op : Instr → Op
  | .nop => .nop
  | .stop => .stop
  | .lit _ => .lit
  | .dup => .dup
  | .drop => .drop
  | .swap => .swap
  | .push => .push
  | .pop => .pop
  | .jmp => .jmp
  | .cjmp => .cjmp
  | .call => .call
  | .ccall => .ccall
  | .ret => .ret
  | .fetch => .fetch
  | .store => .store
  | .add => .add
  | .sub => .sub
  | .mul => .mul
  | .divmod => .divmod
  | .eq => .eq
  | .ne => .ne
  | .lt => .lt
  | .gt => .gt
  | .and => .and
  | .or => .or
  | .xor => .xor
  | .shift => .shift
  | .syscall0 => .syscall0
  | .syscall1 => .syscall1
  | .syscall2 => .syscall2
  | .syscall3 => .syscall3
  | .syscall4 => .syscall4

/-- An opcode map is a bijection between `0x00 .. 0x1F` and the 32 mnemonics (R5):
32 entries, none twice. -/
abbrev OpcodeMapWf (map : List Op) : Prop :=
  map.length = 32 ∧ map.Nodup

/-- The constraints Table P of R5 puts on the parameters. -/
abbrev Config.wf (c : Config) : Prop :=
  (1 ≤ c.memWords ∧ c.memWords ≤ 2 ^ 31 - 1) ∧ 1 ≤ c.dsCap ∧ 1 ≤ c.rsCap ∧ OpcodeMapWf c.opcodeMap

/-- An instruction is well formed for an opcode map that has its mnemonic.
Its fields need no check: the immediate of `lit` is any 32-bit value (R81). -/
abbrev Instr.wf (map : List Op) (i : Instr) : Prop :=
  i.op ∈ map

/-- An image the load transaction accepts: at most `MEM_WORDS` words (R262). -/
abbrev ImageWf (c : Config) (image : List Word) : Prop :=
  image.length ≤ c.memWords

end Sys2Proof
end

