-- ==== Sys2Proof/Decode.lean ====
section
/-! DEFINITION. Decoding a list of words, and encoding an instruction (30_encoding.md). -/

namespace Sys2Proof

/-- The default `OPCODE_MAP`: the order of Table OP (R84), the spec's decision D1 (log entry 1). -/
def defaultOpcodeMap : List Op :=
  [.nop, .stop, .lit, .dup, .drop, .swap, .push, .pop,
   .jmp, .cjmp, .call, .ccall, .ret, .fetch, .store,
   .add, .sub, .mul, .divmod,
   .eq, .ne, .lt, .gt,
   .and, .or, .xor, .shift,
   .syscall0, .syscall1, .syscall2, .syscall3, .syscall4]

/-- Why a list of words is no instruction. -/
inductive DecodeError where
  /-- there is no word to decode -/
  | noWord
  /-- the first word is outside the enumeration (R85) -/
  | illegalOpcode (w : Word)
  /-- the first word is `lit` and no immediate word follows (R110) -/
  | missingImmediate
  deriving DecidableEq, Repr

/-- The mnemonic an opcode word selects: the whole word is compared, as an unsigned value (R82, R85, R86). -/
def opOfWord (map : List Op) (w : Word) : Option Op :=
  if 0x1F < w.toNat then none else map[w.toNat]?

/-- The one-word instruction of a mnemonic of format O; `lit` is the only one of format L (R81). -/
def Op.oneWord : Op → Option Instr
  | .nop => some .nop
  | .stop => some .stop
  | .lit => none
  | .dup => some .dup
  | .drop => some .drop
  | .swap => some .swap
  | .push => some .push
  | .pop => some .pop
  | .jmp => some .jmp
  | .cjmp => some .cjmp
  | .call => some .call
  | .ccall => some .ccall
  | .ret => some .ret
  | .fetch => some .fetch
  | .store => some .store
  | .add => some .add
  | .sub => some .sub
  | .mul => some .mul
  | .divmod => some .divmod
  | .eq => some .eq
  | .ne => some .ne
  | .lt => some .lt
  | .gt => some .gt
  | .and => some .and
  | .or => some .or
  | .xor => some .xor
  | .shift => some .shift
  | .syscall0 => some .syscall0
  | .syscall1 => some .syscall1
  | .syscall2 => some .syscall2
  | .syscall3 => some .syscall3
  | .syscall4 => some .syscall4

/-- The immediate of a two-word instruction: the whole word after the opcode word (R83). -/
def decodeLit : List Word → Except DecodeError (Instr × List Word)
  | [] => .error .missingImmediate
  | imm :: rest => .ok (.lit imm, rest)

/-- The instruction at the head of a list of words, with the words after it (R81 to R87). -/
def decode (map : List Op) : List Word → Except DecodeError (Instr × List Word)
  | [] => .error .noWord
  | w :: rest =>
    match opOfWord map w with
    | none => .error (.illegalOpcode w)
    | some o =>
      match o.oneWord with
      | some i => .ok (i, rest)
      | none => decodeLit rest

/-- The opcode word of a mnemonic (R84). -/
def wordOfOp (map : List Op) (o : Op) : Word :=
  BitVec.ofNat 32 (map.idxOf o)

/-- The words that follow the opcode word (R81): one for `lit`, none for any other. -/
def Instr.operandWords : Instr → List Word
  | .lit imm => [imm]
  | .nop | .stop | .dup | .drop | .swap | .push | .pop => []
  | .jmp | .cjmp | .call | .ccall | .ret | .fetch | .store => []
  | .add | .sub | .mul | .divmod | .eq | .ne | .lt | .gt => []
  | .and | .or | .xor | .shift => []
  | .syscall0 | .syscall1 | .syscall2 | .syscall3 | .syscall4 => []

/-- The words of an instruction (R81, R84). -/
def encode (map : List Op) (i : Instr) : List Word :=
  wordOfOp map i.op :: i.operandWords

/-- The number of words of an instruction (R87). -/
def Instr.length (i : Instr) : Nat :=
  1 + i.operandWords.length

/-- The two words a table word stands for: bits 31..0 are the first word, bits 63..32 the second,
and every bit above `nbits` is 0. -/
def tableWords (nbits w : Nat) : List Word :=
  [BitVec.ofNat 32 (w % 2 ^ nbits), BitVec.ofNat 32 (w % 2 ^ nbits / 2 ^ 32)]

/-- The instruction the decoder reads from an instruction whose bits are `w`,
under the default opcode map. -/
def decodeTableWord (nbits w : Nat) : Option Instr :=
  match decode defaultOpcodeMap (tableWords nbits w) with
  | .ok (i, _) => some i
  | .error _ => none

end Sys2Proof
end

