-- ==== Sys2Proof/Machine/Parameters.lean ====
section
/-! DEFINITION. The parameter values `State.reset` is built with (R5); every step works for any values. -/

namespace Sys2Proof.Machine

/-- `MEM_WORDS` (R5: "source uses 1024 words", decision D3). -/
def defaultMemWords : Nat := 1024

/-- `DS_CAP`. DESIGN CHOICE (log entry 3): OPEN in the spec (D4); the figure of its test configuration. -/
def defaultDsCap : Nat := 16

/-- `RS_CAP`. DESIGN CHOICE (log entry 3): OPEN in the spec (D4); the figure of its test configuration. -/
def defaultRsCap : Nat := 16

/-- The parameters of the machine `State.reset` describes. -/
def defaultConfig : Config where
  memWords := defaultMemWords
  dsCap := defaultDsCap
  rsCap := defaultRsCap
  opcodeMap := defaultOpcodeMap

end Sys2Proof.Machine
end

