-- ==== Sys2Proof/Machine/State.lean ====
section
/-! DEFINITION. The machine's state (Table S of R20, the event trace of R33) and its value after reset (R35). -/

namespace Sys2Proof.Machine

/-- The two stacks, as a fault record names them (R226). -/
inductive StackId where
  | data
  | ret
  deriving DecidableEq, Repr

/-- The stack operation a fault record names (R226, decision D9). -/
inductive StackOp where
  | pop
  | push
  deriving DecidableEq, Repr

/-- The access kinds of `CheckAddr` (R9, R224). -/
inductive Access where
  | fetch
  | store
  | ifetch
  | target
  deriving DecidableEq, Repr

/-- The five faults of Table F (R220), each with the information it records besides `ip`. -/
inductive FaultCause where
  | decodeFault (word : Word)
  | stackUnderflow (stack : StackId) (op : StackOp)
  | stackOverflow (stack : StackId) (op : StackOp)
  | memoryOutOfRange (access : Access) (addr : Word)
  | divisionByZero
  deriving DecidableEq, Repr

/-- The fault record of R226: `kind` and its information in `cause`, `ip = a`; its `code` is computed (`FaultRecord.code`). -/
structure FaultRecord where
  cause : FaultCause
  ip : Nat
  deriving DecidableEq, Repr

/-- The run state (R27). -/
inductive RunState where
  | running
  | halted
  | faulted
  deriving DecidableEq, Repr

/-- The opaque context (R29, R210), as a label the CORE never looks at.
DESIGN CHOICE (log entry 4): the spec gives it no type. -/
abbrev Context := Nat

/-- The opaque handle of an attached bridge (R29), as a label the CORE never looks at.
DESIGN CHOICE (log entry 4): the spec gives it no type. -/
abbrev BridgeHandle := Nat

/-- One bridge invocation (R205). -/
structure Event where
  number : Word
  arg0 : Word
  arg1 : Word
  arg2 : Word
  arg3 : Word
  context : Context
  deriving DecidableEq, Repr

/-- A stack: an array of cells and the count of those in use (R22, R23).
The cells in use are those at index below `count`; the bottom one has index 0. -/
structure Stack where
  cells : List Word
  count : Nat
  deriving DecidableEq, Repr

/-- Memory: the cells that do not hold `Memory.unlisted`, by rising address (R21, R51). -/
abbrev Memory := List (Nat × Word)

/-- Everything the spec gives one CORE instance (Table S of R20), with the event trace (R33), the parameters it was
built with (R5), which nothing changes (log entry 2), and the host's load (R65, log entry 9). -/
structure State where
  /-- the parameters of R5 -/
  cfg : Config
  /-- `memory` (R21) -/
  mem : Memory
  /-- `data_stack` and `sp` (R22) -/
  ds : Stack
  /-- `return_stack` and `rp` (R23) -/
  rs : Stack
  /-- `ip` (R24) -/
  ip : Nat
  /-- `run` (R27) -/
  run : RunState
  /-- `fault` (R28) -/
  fault : Option FaultRecord
  /-- `bridge` (R29); `none` is an absent bridge (R210) -/
  bridge : Option BridgeHandle
  /-- `context` (R29) -/
  context : Context
  /-- the event trace, oldest first (R33, R205) -/
  events : List Event
  /-- whether the host has issued its one load since reset (R65, R262).
  DESIGN CHOICE (log entry 9): the host's history, which the spec tells in words and no instruction reads or writes. -/
  loaded : Bool
  deriving DecidableEq, Repr

/-- Why the machine stops outside the spec's own faults, which are next states (R226, log entry 7).
No step raises any of these. -/
inductive Fault where
  /-- Raised by the load transaction alone, after a step or a load since reset:
  "not a move the host has" (R262). Safe: the model gives no successor. -/
  | loadOutsideReset
  deriving DecidableEq, Repr

/-- Why a request gets no meaning. No step raises any of these. -/
inductive Refusal where
  /-- Raised by `exec` for an instruction that has no meaning yet; safe. No arm of this model does. -/
  | notModelled (mnemonic : String)
  /-- Raised by the load transaction alone, for an image longer than memory: "the load is refused" (R262). Safe. -/
  | imageTooLong
  deriving DecidableEq, Repr

/-- An empty stack of `cap` zeroed cells (R35). -/
def Stack.zeroed (cap : Nat) : Stack where
  cells := List.replicate cap 0
  count := 0

/-- The state after `reset(bridge, context)` of a machine with parameters `cfg` (R260, Table RV of R35). -/
def State.resetWith (cfg : Config) (bridge : Option BridgeHandle) (context : Context) : State where
  cfg := cfg
  mem := []
  ds := Stack.zeroed cfg.dsCap
  rs := Stack.zeroed cfg.rsCap
  ip := 0
  run := .running
  fault := none
  bridge := bridge
  context := context
  events := []
  loaded := false

/-- The machine right after reset (R35), with the default parameters, no bridge attached and context 0.
DESIGN CHOICE for the stack capacities (log entry 3) and for what reset is supplied (log entry 4). -/
def State.reset : State :=
  State.resetWith defaultConfig none 0

end Sys2Proof.Machine
end

