-- ==== Sys2Proof/Machine/Memory.lean ====
section
/-! DEFINITION. Reading and writing one word of memory, in its canonical form (20_memory.md). -/

namespace Sys2Proof.Machine

/-- What an unlisted address reads as: reset zeroes every cell (R35). -/
def Memory.unlisted : Word := 0

/-- The word at an address (R9 `MemRead`, R57). -/
def Memory.read : Memory → Nat → Word
  | [], _ => Memory.unlisted
  | (b, w) :: m, a => if a = b then w else Memory.read m a

/-- Put a word in front of the cells of higher address, unless it is what an unlisted address reads as. -/
def Memory.place (a : Nat) (v : Word) (m : Memory) : Memory :=
  if v = Memory.unlisted then m else (a, v) :: m

/-- Set the word at an address (R9 `MemWrite`, R57), keeping the canonical form. -/
def Memory.write : Memory → Nat → Word → Memory
  | [], a, v => Memory.place a v []
  | (b, w) :: m, a, v =>
    if a < b then Memory.place a v ((b, w) :: m)
    else if a = b then Memory.place a v m
    else (b, w) :: Memory.write m a v

/-- Set consecutive words from an address on (R262). -/
def Memory.writeWords (m : Memory) (a : Nat) : List Word → Memory
  | [] => m
  | w :: ws => Memory.writeWords (m.write a w) (a + 1) ws

/-- The canonical form: addresses strictly rising, no cell equal to what an unlisted address reads as. -/
abbrev Memory.wf (m : Memory) : Prop :=
  m.Pairwise (fun p q => p.1 < q.1) ∧ ∀ p ∈ m, p.2 ≠ Memory.unlisted

end Sys2Proof.Machine
end

