-- ==== Sys2Proof/Machine/Ops.lean ====
section
/-! DEFINITION. The primitives the instruction rules are written in (R9, R10, R11), fault entry (R226) and instruction fetch (R86). -/

namespace Sys2Proof.Machine

/-- Work on a copy of the state that a `raise` abandons (R11). -/
abbrev Work (α : Type) := Except FaultCause α

/-- `sp` (R22). -/
abbrev State.sp (s : State) : Nat := s.ds.count

/-- `rp` (R23). -/
abbrev State.rp (s : State) : Nat := s.rs.count

/-- The cell `k` places below the top of a stack: `k = 0` is the top (R22). -/
def Stack.peek (st : Stack) (k : Nat) : Word := st.cells.getD (st.count - 1 - k) 0

/-- TOS (R7). -/
def State.tos (s : State) : Word := s.ds.peek 0

/-- NOS (R7). -/
def State.nos (s : State) : Word := s.ds.peek 1

/-- Take the top cell; the vacated cell keeps its value (R10, R30). -/
def Stack.pop (st : Stack) : Word × Stack :=
  (st.peek 0, { st with count := st.count - 1 })

/-- Put a word on top (R10). -/
def Stack.push (st : Stack) (v : Word) : Stack where
  cells := st.cells.set st.count v
  count := st.count + 1

/-- `DS.pop()` (R10). -/
def State.dsPop (s : State) : Work (Word × State) :=
  if s.ds.count = 0 then .error (.stackUnderflow .data .pop)
  else .ok (s.ds.pop.1, { s with ds := s.ds.pop.2 })

/-- `DS.push(v)` (R10). -/
def State.dsPush (s : State) (v : Word) : Work State :=
  if s.ds.count = s.cfg.dsCap then .error (.stackOverflow .data .push)
  else .ok { s with ds := s.ds.push v }

/-- `RS.pop()` (R10). -/
def State.rsPop (s : State) : Work (Word × State) :=
  if s.rs.count = 0 then .error (.stackUnderflow .ret .pop)
  else .ok (s.rs.pop.1, { s with rs := s.rs.pop.2 })

/-- `RS.push(v)` (R10). -/
def State.rsPush (s : State) (v : Word) : Work State :=
  if s.rs.count = s.cfg.rsCap then .error (.stackOverflow .ret .push)
  else .ok { s with rs := s.rs.push v }

/-- An address that `CheckAddr` lets pass: `0 <= x < MEM_WORDS` (R9, R51). -/
abbrev State.addrOk (s : State) (x : Int) : Prop :=
  0 ≤ x ∧ x < (s.cfg.memWords : Int)

/-- `CheckAddr(x, access)`: the address, or the fault (R9). -/
def State.checkAddr (s : State) (x : Int) (k : Access) : Work Nat :=
  if s.addrOk x then .ok x.toNat else .error (.memoryOutOfRange k (wrap32 x))

/-- `MemRead(addr, 1)` (R9); its callers have checked the address. -/
def State.memRead (s : State) (a : Nat) : Word := s.mem.read a

/-- `MemWrite(addr, 1, v)` (R9); its callers have checked the address. -/
def State.memWrite (s : State) (a : Nat) (v : Word) : State :=
  { s with mem := s.mem.write a v }

/-- `ip <- t`. -/
def State.setIp (s : State) (t : Nat) : State := { s with ip := t }

/-- `ip <- nip`, the default advance (R88).
Inside an instruction `ip` still holds `a`, the address of its opcode word (R8). -/
def State.advance (s : State) : State := s.setIp (s.ip + 1)

/-- The bridge invocation (R205): one event at the end of the trace, with the stored context (R210). -/
def State.emit (s : State) (number arg0 arg1 arg2 arg3 : Word) : State :=
  { s with events := s.events ++ [⟨number, arg0, arg1, arg2, arg3, s.context⟩] }

/-- Fault entry (R226): the state before the step, Faulted, with the record.
`ip` holds `a`, where the step began, since no instruction's work on a copy reaches this state. -/
def State.takeFault (s : State) (c : FaultCause) : State :=
  { s with run := .faulted, fault := some ⟨c, s.ip⟩ }

/-- Commit the work done on a copy of `s`, or take the fault it raised (R11, R226). -/
def State.commit (s : State) : Work State → Host.Outcome State Fault Refusal
  | .ok t => .next t
  | .error c => .next (s.takeFault c)

/-- The numeric code of a fault (Table F of R220, decision D9); code 0 means no fault. -/
def FaultCause.code : FaultCause → Nat
  | .decodeFault _ => 1
  | .stackUnderflow _ _ => 2
  | .stackOverflow _ _ => 3
  | .memoryOutOfRange _ _ => 4
  | .divisionByZero => 5

/-- The `code` field of a fault record (R226). -/
def FaultRecord.code (r : FaultRecord) : Nat := r.cause.code

/-- The code an inspector reads: 0 when there is no fault (R220). -/
def State.faultCode (s : State) : Nat :=
  match s.fault with
  | none => 0
  | some r => r.code

/-- The words of memory an instruction at address `a` may take: its own and the next, where they exist. -/
def State.wordsAt (s : State) (a : Nat) : List Word :=
  if a + 1 < s.cfg.memWords then [s.memRead a, s.memRead (a + 1)] else [s.memRead a]

/-- What the words at an address in memory decode to, or the fault of R86 or R110. -/
def State.decodeAt (s : State) (a : Nat) : Work Instr :=
  match decode s.cfg.opcodeMap (s.wordsAt a) with
  | .ok (i, _) => .ok i
  | .error (.illegalOpcode w) => .error (.decodeFault w)
  | .error .missingImmediate => .error (.memoryOutOfRange .ifetch (zext32 (a + 1)))
  | .error .noWord => .error (.memoryOutOfRange .ifetch (zext32 a))

/-- Fetch and decode the instruction at `ip` (R86): the range check, then the decode. -/
def State.fetchInstr (s : State) : Work Instr := do
  let a ← s.checkAddr s.ip .ifetch
  s.decodeAt a

end Sys2Proof.Machine
end

