-- ==== Sys2Proof/Machine/Operands.lean ====
section
/-! DEFINITION. The operand forms the instructions share: the stack pictures of R7 over the primitives of R10. -/

namespace Sys2Proof.Machine

/-- `( a b -- f a b )`: `b` is TOS and is popped first. -/
def State.binary (f : Word → Word → Word) (s : State) : Work State := do
  let (b, s) ← s.dsPop
  let (a, s) ← s.dsPop
  let s ← s.dsPush (f a b)
  return s.advance

/-- The taken jump to a target popped from a stack: check it, then `ip <- s32(t)` (R130, R135). -/
def State.jumpTo (t : Word) (s : State) : Work State := do
  let a ← s.checkAddr (s32 t) .target
  return s.setIp a

/-- The taken call: check the target, save `nip` on the return stack, then `ip <- s32(t)` (R132). -/
def State.callTo (t : Word) (s : State) : Work State := do
  let a ← s.checkAddr (s32 t) .target
  let s ← s.rsPush (zext32 (s.ip + 1))
  return s.setIp a

/-- `( cond addr -- )`: pop the target and the condition; take the transfer iff the condition is not 0 (R131, R133). -/
def State.conditional (taken : Word → State → Work State) (s : State) : Work State := do
  let (t, s) ← s.dsPop
  let (c, s) ← s.dsPop
  if conditionHolds c then taken t s else return s.advance

end Sys2Proof.Machine
end

