-- ==== Sys2Proof/Machine/Access.lean ====
section
/-! DEFINITION. Memory access: `fetch`, `store` (43_memory_access.md). -/

namespace Sys2Proof.Machine

/-- `fetch` (R150). -/
def execFetch (s : State) : Host.Outcome State Fault Refusal :=
  s.commit do
    let (x, s) ← s.dsPop
    let a ← s.checkAddr (s32 x) .fetch
    let s ← s.dsPush (s.memRead a)
    return s.advance

/-- `store`: the address is TOS, the value NOS (R151). -/
def execStore (s : State) : Host.Outcome State Fault Refusal :=
  s.commit do
    let (x, s) ← s.dsPop
    let (v, s) ← s.dsPop
    let a ← s.checkAddr (s32 x) .store
    return (s.memWrite a v).advance

end Sys2Proof.Machine
end

