-- ==== Sys2Proof/Machine/Arithmetic.lean ====
section
/-! DEFINITION. Arithmetic: `+`, `-`, `*`, `/%` (44_arithmetic.md). -/

namespace Sys2Proof.Machine

/-- `+` (R160). -/
def execAdd (s : State) : Host.Outcome State Fault Refusal :=
  s.commit (s.binary addValue)

/-- `-` (R161). -/
def execSub (s : State) : Host.Outcome State Fault Refusal :=
  s.commit (s.binary subValue)

/-- `*` (R162). -/
def execMul (s : State) : Host.Outcome State Fault Refusal :=
  s.commit (s.binary mulValue)

/-- `/%`: the quotient, then the remainder on top (R163). -/
def execDivmod (s : State) : Host.Outcome State Fault Refusal :=
  s.commit do
    let (b, s) ← s.dsPop
    let (a, s) ← s.dsPop
    if s32 b = 0 then throw .divisionByZero
    let s ← s.dsPush (quotientValue a b)
    let s ← s.dsPush (remainderValue a b)
    return s.advance

end Sys2Proof.Machine
end

