-- ==== Sys2Proof/Machine/Bitwise.lean ====
section
/-! DEFINITION. Bitwise and shift: `&`, `|`, `^`, `shift` (46_bitwise_shift.md). -/

namespace Sys2Proof.Machine

/-- `&` (R190). -/
def execAnd (s : State) : Host.Outcome State Fault Refusal :=
  s.commit (s.binary andValue)

/-- `|` (R191). -/
def execOr (s : State) : Host.Outcome State Fault Refusal :=
  s.commit (s.binary orValue)

/-- `^` (R192). -/
def execXor (s : State) : Host.Outcome State Fault Refusal :=
  s.commit (s.binary xorValue)

/-- `shift` (R193). -/
def execShift (s : State) : Host.Outcome State Fault Refusal :=
  s.commit (s.binary shiftValue)

end Sys2Proof.Machine
end

