-- ==== Sys2Proof/Machine/Comparison.lean ====
section
/-! DEFINITION. Comparison: `==`, `!=`, `<`, `>` (45_comparison.md). -/

namespace Sys2Proof.Machine

/-- `==` (R180). -/
def execEq (s : State) : Host.Outcome State Fault Refusal :=
  s.commit (s.binary eqValue)

/-- `!=` (R181). -/
def execNe (s : State) : Host.Outcome State Fault Refusal :=
  s.commit (s.binary neValue)

/-- `<` (R182). -/
def execLt (s : State) : Host.Outcome State Fault Refusal :=
  s.commit (s.binary ltValue)

/-- `>` (R183). -/
def execGt (s : State) : Host.Outcome State Fault Refusal :=
  s.commit (s.binary gtValue)

end Sys2Proof.Machine
end

