-- ==== Sys2Proof/Machine/Control.lean ====
section
/-! DEFINITION. Machine control: `nop`, `stop` (40_machine_control.md). -/

namespace Sys2Proof.Machine

/-- `nop` (R100). -/
def execNop (s : State) : Host.Outcome State Fault Refusal :=
  s.commit (.ok s.advance)

/-- `stop` (R101): `ip` stays at the `stop`, the machine halts. -/
def execStop (s : State) : Host.Outcome State Fault Refusal :=
  s.commit (.ok { s with run := .halted })

end Sys2Proof.Machine
end

