-- ==== Sys2Proof/Machine/StackOps.lean ====
section
/-! DEFINITION. Stack manipulation: `lit`, `dup`, `drop`, `swap`, `push`, `pop` (41_stack.md). -/

namespace Sys2Proof.Machine

/-- `lit` (R110), with the immediate the decoder read at `a + 1` (log entry 27). -/
def execLit (imm : Word) (s : State) : Host.Outcome State Fault Refusal :=
  s.commit do
    let _ ← s.checkAddr ((s.ip + 1 : Nat) : Int) .ifetch
    let s ← s.dsPush imm
    return s.setIp (s.ip + 2)

/-- `dup` (R111). -/
def execDup (s : State) : Host.Outcome State Fault Refusal :=
  s.commit do
    let (n, s) ← s.dsPop
    let s ← s.dsPush n
    let s ← s.dsPush n
    return s.advance

/-- `drop` (R112). -/
def execDrop (s : State) : Host.Outcome State Fault Refusal :=
  s.commit do
    let (_, s) ← s.dsPop
    return s.advance

/-- `swap` (R113). -/
def execSwap (s : State) : Host.Outcome State Fault Refusal :=
  s.commit do
    let (b, s) ← s.dsPop
    let (a, s) ← s.dsPop
    let s ← s.dsPush b
    let s ← s.dsPush a
    return s.advance

/-- `push`: data stack to return stack (R114). -/
def execPush (s : State) : Host.Outcome State Fault Refusal :=
  s.commit do
    let (n, s) ← s.dsPop
    let s ← s.rsPush n
    return s.advance

/-- `pop`: return stack to data stack (R115). -/
def execPop (s : State) : Host.Outcome State Fault Refusal :=
  s.commit do
    let (n, s) ← s.rsPop
    let s ← s.dsPush n
    return s.advance

end Sys2Proof.Machine
end

