-- ==== Sys2Proof/Machine/Syscall.lean ====
section
/-! DEFINITION. Syscalls: the number is TOS, then the last argument, `arg0` deepest (R199); unused arguments are 0 (47_syscall.md). -/

namespace Sys2Proof.Machine

/-- `syscall0` (R200). -/
def execSyscall0 (s : State) : Host.Outcome State Fault Refusal :=
  s.commit do
    let (num, s) ← s.dsPop
    return s.advance.emit num 0 0 0 0

/-- `syscall1` (R201). -/
def execSyscall1 (s : State) : Host.Outcome State Fault Refusal :=
  s.commit do
    let (num, s) ← s.dsPop
    let (arg0, s) ← s.dsPop
    return s.advance.emit num arg0 0 0 0

/-- `syscall2` (R202). -/
def execSyscall2 (s : State) : Host.Outcome State Fault Refusal :=
  s.commit do
    let (num, s) ← s.dsPop
    let (arg1, s) ← s.dsPop
    let (arg0, s) ← s.dsPop
    return s.advance.emit num arg0 arg1 0 0

/-- `syscall3` (R203). -/
def execSyscall3 (s : State) : Host.Outcome State Fault Refusal :=
  s.commit do
    let (num, s) ← s.dsPop
    let (arg2, s) ← s.dsPop
    let (arg1, s) ← s.dsPop
    let (arg0, s) ← s.dsPop
    return s.advance.emit num arg0 arg1 arg2 0

/-- `syscall4` (R204). -/
def execSyscall4 (s : State) : Host.Outcome State Fault Refusal :=
  s.commit do
    let (num, s) ← s.dsPop
    let (arg3, s) ← s.dsPop
    let (arg2, s) ← s.dsPop
    let (arg1, s) ← s.dsPop
    let (arg0, s) ← s.dsPop
    return s.advance.emit num arg0 arg1 arg2 arg3

end Sys2Proof.Machine
end

