-- ==== Sys2Proof/Machine/Transfer.lean ====
section
/-! DEFINITION. Control transfer: `jmp`, `cjmp`, `call`, `ccall`, `return` (42_control_transfer.md). -/

namespace Sys2Proof.Machine

/-- `jmp` (R130). -/
def execJmp (s : State) : Host.Outcome State Fault Refusal :=
  s.commit do
    let (t, s) ← s.dsPop
    s.jumpTo t

/-- `cjmp` (R131). -/
def execCjmp (s : State) : Host.Outcome State Fault Refusal :=
  s.commit (s.conditional fun t s => s.jumpTo t)

/-- `call` (R132). -/
def execCall (s : State) : Host.Outcome State Fault Refusal :=
  s.commit do
    let (t, s) ← s.dsPop
    s.callTo t

/-- `ccall` (R133). -/
def execCcall (s : State) : Host.Outcome State Fault Refusal :=
  s.commit (s.conditional fun t s => s.callTo t)

/-- `return` (R134). -/
def execRet (s : State) : Host.Outcome State Fault Refusal :=
  s.commit do
    let (t, s) ← s.rsPop
    s.jumpTo t

end Sys2Proof.Machine
end

