-- ==== Sys2Proof/Machine/Dispatch.lean ====
section
/-! DEFINITION. One arm per instruction: the instruction's own meaning. -/

namespace Sys2Proof.Machine

/-- The meaning of an instruction at a state whose `ip` is the address of its opcode word (R86). -/
def exec (i : Instr) (s : State) : Host.Outcome State Fault Refusal :=
  match i with
  | .nop => Sys2Proof.Machine.execNop s
  | .stop => Sys2Proof.Machine.execStop s
  | .lit imm => Sys2Proof.Machine.execLit imm s
  | .dup => Sys2Proof.Machine.execDup s
  | .drop => Sys2Proof.Machine.execDrop s
  | .swap => Sys2Proof.Machine.execSwap s
  | .push => Sys2Proof.Machine.execPush s
  | .pop => Sys2Proof.Machine.execPop s
  | .jmp => Sys2Proof.Machine.execJmp s
  | .cjmp => Sys2Proof.Machine.execCjmp s
  | .call => Sys2Proof.Machine.execCall s
  | .ccall => Sys2Proof.Machine.execCcall s
  | .ret => Sys2Proof.Machine.execRet s
  | .fetch => Sys2Proof.Machine.execFetch s
  | .store => Sys2Proof.Machine.execStore s
  | .add => Sys2Proof.Machine.execAdd s
  | .sub => Sys2Proof.Machine.execSub s
  | .mul => Sys2Proof.Machine.execMul s
  | .divmod => Sys2Proof.Machine.execDivmod s
  | .eq => Sys2Proof.Machine.execEq s
  | .ne => Sys2Proof.Machine.execNe s
  | .lt => Sys2Proof.Machine.execLt s
  | .gt => Sys2Proof.Machine.execGt s
  | .and => Sys2Proof.Machine.execAnd s
  | .or => Sys2Proof.Machine.execOr s
  | .xor => Sys2Proof.Machine.execXor s
  | .shift => Sys2Proof.Machine.execShift s
  | .syscall0 => Sys2Proof.Machine.execSyscall0 s
  | .syscall1 => Sys2Proof.Machine.execSyscall1 s
  | .syscall2 => Sys2Proof.Machine.execSyscall2 s
  | .syscall3 => Sys2Proof.Machine.execSyscall3 s
  | .syscall4 => Sys2Proof.Machine.execSyscall4 s

end Sys2Proof.Machine
end

