-- ==== Sys2Proof/Machine/Step.lean ====
section
/-! DEFINITION. One step (R86, R232, R264), and placing an instruction where the next step fetches it. -/

namespace Sys2Proof.Machine

/-- One `step` transaction (R264): in Running, one instruction or one fault (R86);
in Halted or Faulted, no change (R232). -/
def step (s : State) : Host.Outcome State Fault Refusal :=
  match s.run with
  | .halted => .next s
  | .faulted => .next s
  | .running =>
    match s.fetchInstr with
    | .ok i => exec i s
    | .error c => .next (s.takeFault c)

/-- `s` with the instruction whose bits are `w` in memory at `ip` and the machine Running,
so that the next step runs it (log entry 8).
The second word is written only where memory has a cell for it. -/
def State.withFetchWord (s : State) (nbits w : Nat) : State :=
  { s with
    mem := s.mem.writeWords s.ip ((tableWords nbits w).take (s.cfg.memWords - s.ip))
    run := .running
    fault := none }

end Sys2Proof.Machine
end

