-- ==== Sys2Proof/Machine/HostPort.lean ====
section
/-! DEFINITION. The host's transactions: reset, load, step, inspect (70_reset_and_hazards.md), and the result a step reports (R231). -/

namespace Sys2Proof.Machine

/-- What a `step` transaction reports (R231). -/
inductive StepResult where
  | cont
  | halt
  | fault (record : Option FaultRecord)
  deriving DecidableEq, Repr

/-- The result a step reports, read from the state after it (R231, R232). -/
def State.result (s : State) : StepResult :=
  match s.run with
  | .running => .cont
  | .halted => .halt
  | .faulted => .fault s.fault

/-- `load(image)` (R262): only from exactly the reset state, in which no load has been issued (R65: once);
an image longer than memory is refused. -/
def State.load (s : State) (image : List Word) : Host.Outcome State Fault Refusal :=
  if s = State.resetWith s.cfg s.bridge s.context then
    if image.length ≤ s.cfg.memWords then .next { s with mem := s.mem.writeWords 0 image, loaded := true }
    else .refused .imageTooLong
  else .fault .loadOutsideReset

/-- The host's four moves (R267). -/
inductive Transaction where
  | reset (bridge : Option BridgeHandle) (context : Context)
  | load (image : List Word)
  | step
  | inspect
  deriving DecidableEq, Repr

/-- The effect of a host move on the state (R260, R262, R264, R265). -/
def State.transact (s : State) : Transaction → Host.Outcome State Fault Refusal
  | .reset bridge context => .next (State.resetWith s.cfg bridge context)
  | .load image => s.load image
  | .step => Sys2Proof.Machine.step s
  | .inspect => .next s

end Sys2Proof.Machine
end

