-- ==== Sys2Proof/Safety.lean ====
section
/-! DEFINITION. The terms statements are made in: the machine's invariants (R31), the fault table (R228), and states that differ only in stale stack cells (R30). -/

namespace Sys2Proof.Machine

/-- The invariants of R31, with the canonical form of memory and what R24, R28 and R210 add. -/
structure State.wf (s : State) : Prop where
  /-- the parameters meet Table P (R5) -/
  cfgOk : s.cfg.wf
  /-- memory is in canonical form -/
  memOk : s.mem.wf
  /-- no cell is listed outside memory (R51) -/
  memBound : ∀ p ∈ s.mem, p.1 < s.cfg.memWords
  /-- the data stack has `DS_CAP` cells (R22) -/
  dsCells : s.ds.cells.length = s.cfg.dsCap
  /-- `sp <= DS_CAP` -/
  dsCount : s.ds.count ≤ s.cfg.dsCap
  /-- the return stack has `RS_CAP` cells (R23) -/
  rsCells : s.rs.cells.length = s.cfg.rsCap
  /-- `rp <= RS_CAP` -/
  rsCount : s.rs.count ≤ s.cfg.rsCap
  /-- `ip <= MEM_WORDS` -/
  ipBound : s.ip ≤ s.cfg.memWords
  /-- a record is present iff the machine is Faulted (R28) -/
  faultIff : s.fault.isSome = true ↔ s.run = .faulted
  /-- in Faulted, `ip` is the address the record names (R24, R226) -/
  faultIp : ∀ r ∈ s.fault, r.ip = s.ip
  /-- every event carries the stored context (R210) -/
  eventContext : ∀ e ∈ s.events, e.context = s.context

/-- In Halted, `ip` is the address of a `stop` (R24, R101). -/
def State.haltedAtStop (s : State) : Prop :=
  s.run = .halted → s.fetchInstr = .ok .stop

/-- The underflow column of Table M for the data stack: fewer than `n` words on it (R228). -/
def State.needsData (s : State) (n : Nat) : Option FaultCause :=
  if s.sp < n then some (.stackUnderflow .data .pop) else none

/-- The underflow column of Table M for the return stack (R228). -/
def State.needsReturn (s : State) (n : Nat) : Option FaultCause :=
  if s.rp < n then some (.stackUnderflow .ret .pop) else none

/-- The address part of Table M's operand-dependent column (R228). -/
def State.badAddr (s : State) (x : Word) (k : Access) : Option FaultCause :=
  if x.toInt < 0 ∨ (s.cfg.memWords : Int) ≤ x.toInt then some (.memoryOutOfRange k x) else none

/-- The overflow column of Table M for the data stack (R228). -/
def State.fullData (s : State) : Option FaultCause :=
  if s.sp = s.cfg.dsCap then some (.stackOverflow .data .push) else none

/-- The overflow column of Table M for the return stack (R228). -/
def State.fullReturn (s : State) : Option FaultCause :=
  if s.rp = s.cfg.rsCap then some (.stackOverflow .ret .push) else none

/-- Table M of R228, in the priority order of R227: the fault an instruction takes, if any,
from the counts and operands before the step. -/
def State.faultTable (s : State) : Instr → Option FaultCause
  | .nop | .stop => none
  | .lit _ =>
    (if s.ip + 1 = s.cfg.memWords then some (.memoryOutOfRange .ifetch (BitVec.ofNat 32 (s.ip + 1))) else none)
      <|> s.fullData
  | .dup => s.needsData 1 <|> s.fullData
  | .drop => s.needsData 1
  | .swap => s.needsData 2
  | .push => s.needsData 1 <|> s.fullReturn
  | .pop => s.needsReturn 1 <|> s.fullData
  | .jmp => s.needsData 1 <|> s.badAddr s.tos .target
  | .cjmp => s.needsData 2 <|> (if s.nos ≠ 0 then s.badAddr s.tos .target else none)
  | .call => s.needsData 1 <|> s.badAddr s.tos .target <|> s.fullReturn
  | .ccall =>
    s.needsData 2 <|> (if s.nos ≠ 0 then s.badAddr s.tos .target <|> s.fullReturn else none)
  | .ret => s.needsReturn 1 <|> s.badAddr (s.rs.peek 0) .target
  | .fetch => s.needsData 1 <|> s.badAddr s.tos .fetch
  | .store => s.needsData 2 <|> s.badAddr s.tos .store
  | .divmod => s.needsData 2 <|> (if s.tos = 0 then some .divisionByZero else none)
  | .add | .sub | .mul => s.needsData 2
  | .eq | .ne | .lt | .gt => s.needsData 2
  | .and | .or | .xor | .shift => s.needsData 2
  | .syscall0 => s.needsData 1
  | .syscall1 => s.needsData 2
  | .syscall2 => s.needsData 3
  | .syscall3 => s.needsData 4
  | .syscall4 => s.needsData 5

/-- The cells of a stack in use, bottom first (R22). -/
def Stack.live (st : Stack) : List Word := st.cells.take st.count

/-- Two states that differ at most in stale stack cells (R30). -/
structure State.sameLive (s t : State) : Prop where
  rest : t = { s with ds := t.ds, rs := t.rs }
  dsCount : t.ds.count = s.ds.count
  rsCount : t.rs.count = s.rs.count
  dsLive : t.ds.live = s.ds.live
  rsLive : t.rs.live = s.rs.live

end Sys2Proof.Machine
end

