-- ==== Sys2Proof/Certificates/Slice0/Obligations.lean ====
section
/-! DEFINITION. The statements for the provers. An exact next state `{ s with … }` is also the frame: every field it does not name is unchanged. -/

open Sys2Proof Sys2Proof.Machine

/-- The schema of a `( a b -- r )` instruction: with two operands it completes, putting in the place of NOS a word
that `value` relates to NOS and TOS; with fewer it takes StackUnderflow. All else is unchanged. -/
def Sys2Proof.BinaryEffect (i : Instr) (value : Word → Word → Word → Prop) : Prop :=
  ∀ s : State, s.wf →
    (2 ≤ s.sp → ∃ r : Word, value s.nos s.tos r ∧
      exec i s = .next { s with ds := ⟨s.ds.cells.set (s.sp - 2) r, s.sp - 1⟩, ip := s.ip + 1 }) ∧
    (s.sp < 2 → exec i s = .next (s.takeFault (.stackUnderflow .data .pop)))

/-- The canonical truth value, written out (R184). -/
def Sys2Proof.truthWord (p : Prop) [Decidable p] : Word := if p then 0xFFFFFFFF else 0

/-- The control flow of a target popped from a stack (R135): inside memory, signed. -/
abbrev Sys2Proof.TargetOk (s : State) (t : Word) : Prop :=
  0 ≤ t.toInt ∧ t.toInt < (s.cfg.memWords : Int)

/-- Instructions run one after another, each committing with the machine still Running. -/
def Sys2Proof.RunsThrough : List Instr → State → State → Prop
  | [], s, t => t = s
  | i :: is, s, t => ∃ u, exec i s = .next u ∧ u.run = .running ∧ Sys2Proof.RunsThrough is u t

/-- The depth change of `dup`, `drop`, `swap` (R116). -/
def Sys2Proof.depthChange : Instr → Int
  | .dup => 1
  | .drop => -1
  | _ => 0

/-- The step of `u` executes the word `w` as the opcode word at `ip`, with the word after it where memory has one:
its instruction, or the fault of its decoding (R86, R110). -/
def Sys2Proof.RunsWord (u : State) (w : Word) : Prop :=
  match decode u.cfg.opcodeMap (w :: (u.wordsAt u.ip).tail) with
  | .ok (i, _) => step u = exec i u
  | .error (.illegalOpcode v) => step u = .next (u.takeFault (.decodeFault v))
  | .error .missingImmediate =>
    step u = .next (u.takeFault (.memoryOutOfRange .ifetch (BitVec.ofNat 32 (u.ip + 1))))
  | .error .noWord => False

/-- `n` steps, after each of which more than `d` words are on the return stack. -/
def Sys2Proof.RunsAbove (d : Nat) : Nat → State → State → Prop
  | 0, s, t => t = s
  | n + 1, s, t => ∃ u, step s = .next u ∧ d < u.rp ∧ Sys2Proof.RunsAbove d n u t

/-- The state after a list of host moves, where all of them go through. -/
def Sys2Proof.afterMoves : List Transaction → State → Option State
  | [], s => some s
  | m :: ms, s =>
    match s.transact m with
    | .next t => Sys2Proof.afterMoves ms t
    | .fault _ => none
    | .refused _ => none

/-- The syscall instructions (R200 to R204). -/
def Sys2Proof.isSyscall (i : Instr) : Prop :=
  i = .syscall0 ∨ i = .syscall1 ∨ i = .syscall2 ∨ i = .syscall3 ∨ i = .syscall4

/-! ## Encoding -/

/-- 30_encoding.md, R81 and R84: decoding what an instruction encodes to gives it back, under every opcode map.
The numbering itself is the spec's decision D1 (log entry 1); no value of it is used. -/
def Obligations.DecodeOfEncodeIsIdentity : Prop :=
  ∀ map : List Op, OpcodeMapWf map → ∀ (i : Instr) (rest : List Word),
    decode map (encode map i ++ rest) = .ok (i, rest)

/-- 30_encoding.md, R82 and R85: a list of words decodes to an instruction only if it begins with that instruction's
encoding, so no other words execute as it. -/
def Obligations.EncodeOfDecodeIsIdentity : Prop :=
  ∀ map : List Op, OpcodeMapWf map → ∀ (ws : List Word) (i : Instr) (rest : List Word),
    decode map ws = .ok (i, rest) → encode map i ++ rest = ws

/-- 30_encoding.md, R87 and R81: the opcode word alone fixes the length: two words for `lit`, one for any other,
whatever follows; only a `lit` with nothing after it does not decode. -/
def Obligations.OpcodeWordFixesLength : Prop :=
  ∀ map : List Op, OpcodeMapWf map → ∀ (w : Word) (o : Op), opOfWord map w = some o →
    (o ≠ .lit → ∃ i, i.op = o ∧ ∀ rest, decode map (w :: rest) = .ok (i, rest)) ∧
    (o = .lit → (∀ imm rest, decode map (w :: imm :: rest) = .ok (.lit imm, rest)) ∧
      decode map [w] = .error .missingImmediate)

/-- Words of Table OP (R84; the numbers are the spec's decision D1, log entry 1), and neighbours outside it.
That bits 31..0 of a table word are the first word and that a missing second word reads as 0, so that the 32-bit word of
`lit` stands for `lit 0`, is the model's choice (log entry 8). -/
def Obligations.TableOPWordsDecode : Prop :=
  decodeTableWord 32 0x00000000 = some .nop ∧
  decodeTableWord 32 0x00000001 = some .stop ∧
  decodeTableWord 32 0x00000002 = some (.lit 0) ∧
  decodeTableWord 64 0xFFFFFFFE00000002 = some (.lit 0xFFFFFFFE) ∧
  decodeTableWord 32 0x00000007 = some .pop ∧
  decodeTableWord 32 0x0000000C = some .ret ∧
  decodeTableWord 32 0x0000000E = some .store ∧
  decodeTableWord 32 0x00000012 = some .divmod ∧
  decodeTableWord 32 0x00000016 = some .gt ∧
  decodeTableWord 32 0x0000001A = some .shift ∧
  decodeTableWord 32 0x0000001F = some .syscall4 ∧
  decodeTableWord 32 0x00000020 = none ∧
  decodeTableWord 32 0x00000100 = none ∧
  decodeTableWord 32 0xFFFFFFFF = none

/-- R85: a word outside `0x00 .. 0x1F` raises DecodeFault when fetched as an opcode and only then; every word inside
selects a mnemonic of its own; as an immediate or as data any word is an ordinary number. -/
def Obligations.IllegalWordsFaultOnlyAsOpcodes : Prop :=
  ∀ s : State, s.wf → s.run = .running → s.ip < s.cfg.memWords →
    (∀ w, s.mem.read s.ip = w → 0x1F < w.toNat → step s = .next (s.takeFault (.decodeFault w))) ∧
    ((s.mem.read s.ip).toNat ≤ 0x1F → ∀ v, step s ≠ .next (s.takeFault (.decodeFault v))) ∧
    (∀ w w' : Word, ∀ o, opOfWord s.cfg.opcodeMap w = some o → opOfWord s.cfg.opcodeMap w' = some o → w = w') ∧
    (∀ w : Word, w.toNat ≤ 0x1F → ∃ o, opOfWord s.cfg.opcodeMap w = some o) ∧
    (∀ v : Word, s.ip + 1 < s.cfg.memWords → s.sp < s.cfg.dsCap → s.mem.read s.ip = wordOfOp s.cfg.opcodeMap .lit →
      s.mem.read (s.ip + 1) = v → ∃ t, step s = .next t ∧ t.run = .running ∧ t.tos = v) ∧
    (∀ v : Word, 1 ≤ s.sp → TargetOk s s.tos → s.mem.read s.ip = wordOfOp s.cfg.opcodeMap .fetch →
      s.mem.read s.tos.toInt.toNat = v → ∃ t, step s = .next t ∧ t.run = .running ∧ t.tos = v)

/-! ## The step -/

/-- 30_encoding.md, R86: in Running, a step is the meaning of the instruction that the words at `ip` decode to.
The advance of `ip` is part of that meaning; the step adds nothing. -/
def Obligations.StepRunsDecodedInstruction : Prop :=
  ∀ (s : State) (i : Instr) (rest : List Word), s.run = .running → s.ip < s.cfg.memWords →
    decode s.cfg.opcodeMap (s.wordsAt s.ip) = .ok (i, rest) → step s = exec i s

/-- 30_encoding.md R86 and 41_stack.md R110: there is no opcode fetch at `MEM_WORDS` and no immediate fetch there.
The fault and its kind are the spec's decision D6 (log entry 12). -/
def Obligations.FetchBeyondMemoryFaults : Prop :=
  ∀ s : State, s.wf → s.run = .running →
    (s.ip = s.cfg.memWords →
      step s = .next (s.takeFault (.memoryOutOfRange .ifetch (BitVec.ofNat 32 s.ip)))) ∧
    (s.ip + 1 = s.cfg.memWords → s.mem.read s.ip = wordOfOp s.cfg.opcodeMap .lit →
      step s = .next (s.takeFault (.memoryOutOfRange .ifetch (BitVec.ofNat 32 (s.ip + 1)))))

/-- 60_exceptions.md, R231 and R232: a step in Halted or Faulted changes nothing and reports the same result again
(the spec's decision D10, log entry 16). -/
def Obligations.StoppedStepChangesNothing : Prop :=
  ∀ s : State, s.run ≠ .running →
    step s = .next s ∧ (s.run = .halted → s.result = .halt) ∧ (s.run = .faulted → s.result = .fault s.fault)

/-- 70_reset_and_hazards.md, R264: every step, of every state, answers a next state; nothing is refused, and the
spec's own faults are next states (log entry 7). -/
def Obligations.EveryStepAnswersNext : Prop :=
  ∀ s : State, ∃ t, step s = .next t

/-- 10_state.md, R31: every step keeps the machine's invariants, from every state that has them. -/
def Obligations.StepKeepsWellFormed : Prop :=
  ∀ s t : State, s.wf → step s = .next t → t.wf

/-- The invariants hold after reset, for every choice of parameters that Table P allows and whatever reset is given. -/
def Obligations.ResetIsWellFormed : Prop :=
  State.reset.wf ∧ State.reset.haltedAtStop ∧
  ∀ (c : Config) (b : Option BridgeHandle) (x : Context), c.wf →
    (State.resetWith c b x).wf ∧ (State.resetWith c b x).haltedAtStop

/-- 10_state.md R24 and 40_machine_control.md R101: while the machine is Halted, `ip` is the address of a `stop`. -/
def Obligations.HaltedStaysAtStop : Prop :=
  ∀ s t : State, s.haltedAtStop → step s = .next t → t.haltedAtStop

/-- 60_exceptions.md, R226: a step that ends Faulted leaves everything but `run` and `fault` as before the step, `ip`
included, and the record names that `ip` (the spec's decision D7, log entry 13). -/
def Obligations.FaultEntryIsPrecise : Prop :=
  ∀ s t : State, s.run = .running → step s = .next t → t.run = .faulted →
    ∃ c, t = { s with run := .faulted, fault := some ⟨c, s.ip⟩ } ∧ t.result = .fault (some ⟨c, s.ip⟩)

/-- 60_exceptions.md, Table F of R220: the code of each fault, and 0 for none (the spec's decision D9, log entry 14). -/
def Obligations.FaultCodesOfTableF : Prop :=
  ∀ s : State,
    (s.fault = none → s.faultCode = 0) ∧
    (∀ w a, s.fault = some ⟨.decodeFault w, a⟩ → s.faultCode = 1) ∧
    (∀ k p a, s.fault = some ⟨.stackUnderflow k p, a⟩ → s.faultCode = 2) ∧
    (∀ k p a, s.fault = some ⟨.stackOverflow k p, a⟩ → s.faultCode = 3) ∧
    (∀ k x a, s.fault = some ⟨.memoryOutOfRange k x, a⟩ → s.faultCode = 4) ∧
    (∀ a, s.fault = some ⟨.divisionByZero, a⟩ → s.faultCode = 5)

/-- 60_exceptions.md, R228 (Table M) in the order of R227: every instruction takes exactly the fault the table gives from
the counts and operands before the step, and commits where the table gives none.
Rests on the spec's decisions D5, D6, D8, D15 (log entries 11, 12, 15, 22). -/
def Obligations.InstructionFaultsAreTableM : Prop :=
  ∀ (i : Instr) (s : State), s.wf → s.ip < s.cfg.memWords →
    (∀ c, s.faultTable i = some c → exec i s = .next (s.takeFault c)) ∧
    (s.faultTable i = none → ∃ t, exec i s = .next t ∧ t.fault = s.fault ∧
      t.run = if i = .stop then .halted else s.run)

/-- 30_encoding.md, R88: where `ip` goes by default, and what a committed instruction reports. -/
def Obligations.DefaultAdvanceAndResult : Prop :=
  ∀ (i : Instr) (s t : State), s.run = .running → exec i s = .next t → t.run ≠ .faulted →
    (i ≠ .stop → t.run = .running ∧ t.result = .cont) ∧
    (i = .stop → t.ip = s.ip ∧ t.run = .halted ∧ t.result = .halt) ∧
    (∀ imm, i = .lit imm → t.ip = s.ip + 2) ∧
    (i.op ∉ [Op.stop, .lit, .jmp, .cjmp, .call, .ccall, .ret] → t.ip = s.ip + 1)

/-! ## Whole-machine rules -/

/-- R56: `store` alone writes memory; only the opcode and immediate fetch and `fetch` read it; outside instructions reset
writes every cell, load the first `L`, inspect none. -/
def Obligations.OnlyStoreWritesMemory : Prop :=
  (∀ (i : Instr) (s t : State), i ≠ .store → exec i s = .next t → t.mem = s.mem) ∧
  (∀ (i : Instr) (s t : State) (m : Memory), i ≠ .store → i ≠ .fetch → exec i s = .next t →
    exec i { s with mem := m } = .next { t with mem := m }) ∧
  (∀ (s t : State) (m : Memory), exec .store s = .next t →
    ∃ n, exec .store { s with mem := m } = .next { t with mem := n } ∧
      (2 ≤ s.sp ∧ TargetOk s s.tos →
        t.mem = s.mem.write s.tos.toInt.toNat s.nos ∧ n = m.write s.tos.toInt.toNat s.nos) ∧
      (¬(2 ≤ s.sp ∧ TargetOk s s.tos) → t.mem = s.mem ∧ n = m)) ∧
  (∀ (s : State) (m : Memory), m.read s.ip = s.mem.read s.ip → m.read (s.ip + 1) = s.mem.read (s.ip + 1) →
    State.fetchInstr { s with mem := m } = s.fetchInstr) ∧
  (∀ (s t : State) (b : Option BridgeHandle) (x : Context), s.transact (.reset b x) = .next t →
    ∀ a, t.mem.read a = 0) ∧
  (∀ (s t : State) (image : List Word), s.transact (.load image) = .next t →
    ∀ a, t.mem.read a = if a < image.length then image.getD a 0 else s.mem.read a) ∧
  (∀ s : State, s.transact .inspect = .next s)

/-- 10_state.md, R29 and R5: no step changes the parameters, the bridge handle or the context, nor what the model keeps of
the host's load (log entry 9). That the parameters stand in State is the model's choice (log entry 2). -/
def Obligations.StepKeepsParametersAndContext : Prop :=
  ∀ s t : State, step s = .next t → t.cfg = s.cfg ∧ t.bridge = s.bridge ∧ t.context = s.context ∧ t.loaded = s.loaded

/-- 47_syscall.md, R205 and R210: the event trace only grows, by one event with the stored context, and only when a
syscall instruction commits. -/
def Obligations.SyscallsAloneEmitEvents : Prop :=
  ∀ s t : State, step s = .next t →
    t.events = s.events ∨
    (s.run = .running ∧ t.run = .running ∧ (∃ i, s.fetchInstr = .ok i ∧ isSyscall i) ∧
      ∃ e, e.context = s.context ∧ t.events = s.events ++ [e])

/-- 47_syscall.md, R206: what the host is, what context it supplied and what it was told before have no influence on
memory, stacks, `ip`, `run` or `fault` (the spec's decision D16, log entry 10), nor has the model's record of its load
(log entry 9). -/
def Obligations.HostCannotInfluenceTheCore : Prop :=
  ∀ (s t : State) (b : Option BridgeHandle) (x : Context) (es : List Event) (l : Bool), step s = .next t →
    ∃ es', step { s with bridge := b, context := x, events := es, loaded := l } =
      .next { t with bridge := b, context := x, events := es', loaded := l }

/-- 10_state.md, R30: states that differ only in stale stack cells step to states that differ only in stale stack cells
(the array picture is the spec's decision D22, log entry 23). -/
def Obligations.StaleCellsAreUnobservable : Prop :=
  ∀ s t : State, s.wf → t.wf → s.sameLive t →
    ∃ s' t', step s = .next s' ∧ step t = .next t' ∧ s'.sameLive t'

/-- R116: the depth changes of the stack family, and of every sequence of `dup`, `drop`, `swap`. -/
def Obligations.StackDepthLaw : Prop :=
  (∀ s : State, s.wf → s.ip < s.cfg.memWords →
    (∀ imm, s.faultTable (.lit imm) = none → ∃ t, exec (.lit imm) s = .next t ∧ t.sp = s.sp + 1 ∧ t.rp = s.rp) ∧
    (s.faultTable .dup = none → ∃ t, exec .dup s = .next t ∧ t.sp = s.sp + 1 ∧ t.rp = s.rp) ∧
    (s.faultTable .drop = none → ∃ t, exec .drop s = .next t ∧ t.sp + 1 = s.sp ∧ t.rp = s.rp) ∧
    (s.faultTable .swap = none → ∃ t, exec .swap s = .next t ∧ t.sp = s.sp ∧ t.rp = s.rp) ∧
    (s.faultTable .push = none → ∃ t, exec .push s = .next t ∧ t.sp + 1 = s.sp ∧ t.rp = s.rp + 1) ∧
    (s.faultTable .pop = none → ∃ t, exec .pop s = .next t ∧ t.sp = s.sp + 1 ∧ t.rp + 1 = s.rp)) ∧
  (∀ (is : List Instr) (s t : State), (∀ i ∈ is, i = .dup ∨ i = .drop ∨ i = .swap) → RunsThrough is s t →
    (t.sp : Int) = s.sp + (is.map depthChange).sum ∧ t.rp = s.rp)

/-- R184: every comparison pushes 0 or -1; on canonical truth values `&`, `|`, `^` are the logical operations and `^` with
-1 is not; a condition is any word that is not 0, and such a word need not combine under `&`. -/
def Obligations.ComparisonsAreCanonicalBooleans : Prop :=
  (∀ (i : Instr) (s : State), i = .eq ∨ i = .ne ∨ i = .lt ∨ i = .gt → s.wf → 2 ≤ s.sp →
    ∃ t, exec i s = .next t ∧ (t.tos = 0 ∨ t.tos = 0xFFFFFFFF)) ∧
  (∀ (s : State) (p q : Prop) [Decidable p] [Decidable q], s.wf → 2 ≤ s.sp →
    s.nos = truthWord p → s.tos = truthWord q →
    (∃ t, exec .and s = .next t ∧ t.tos = truthWord (p ∧ q)) ∧
    (∃ t, exec .or s = .next t ∧ t.tos = truthWord (p ∨ q)) ∧
    (∃ t, exec .xor s = .next t ∧ t.tos = truthWord (¬(p ↔ q)))) ∧
  (∀ (s : State) (p : Prop) [Decidable p], s.wf → 2 ≤ s.sp → s.nos = truthWord p → s.tos = 0xFFFFFFFF →
    ∃ t, exec .xor s = .next t ∧ t.tos = truthWord (¬p)) ∧
  (∀ s : State, s.wf → 2 ≤ s.sp → s.nos ≠ 0 → TargetOk s s.tos →
    (∃ t, exec .cjmp s = .next t ∧ t.ip = s.tos.toInt.toNat) ∧
    (s.rp < s.cfg.rsCap → ∃ t, exec .ccall s = .next t ∧ t.ip = s.tos.toInt.toNat)) ∧
  (∀ s : State, s.wf → 2 ≤ s.sp → s.nos = 1 → s.tos = 2 → ∃ t, exec .and s = .next t ∧ t.tos = 0)

/-- 43_memory_access.md, R152: a `fetch` of the address a `store` wrote, whatever ran between that wrote no memory,
pushes the stored word. -/
def Obligations.StoreThenFetchGivesStoredWord : Prop :=
  ∀ s : State, s.wf → 2 ≤ s.sp → TargetOk s s.tos →
    ∃ t, exec .store s = .next t ∧
      ∀ u : State, u.wf → u.cfg = s.cfg → u.mem = t.mem → 1 ≤ u.sp → u.tos = s.tos →
        ∃ v, exec .fetch u = .next v ∧ v.tos = s.nos

/-- 20_memory.md, R63: a `store` over the word right after itself is executed by the very next step: as any instruction,
`lit` with the word after it included, or with the fault of its decoding. -/
def Obligations.StoredInstructionRunsNext : Prop :=
  ∀ s : State, s.wf → s.run = .running → s.ip + 1 < s.cfg.memWords →
    s.mem.read s.ip = wordOfOp s.cfg.opcodeMap .store → 2 ≤ s.sp → s.tos.toInt = ((s.ip + 1 : Nat) : Int) →
    ∃ t, step s = .next t ∧ t.ip = s.ip + 1 ∧ t.run = .running ∧ RunsWord t s.nos

/-- R63: a store step to any cell, its own opcode cell included, completes unchanged; every later step that fetches that
cell, as the opcode word or as the immediate of a `lit`, executes the stored word, from the very next step on. -/
def Obligations.StoreIsSeenByEveryLaterFetch : Prop :=
  ∀ s : State, s.wf → s.run = .running → s.ip < s.cfg.memWords →
    s.mem.read s.ip = wordOfOp s.cfg.opcodeMap .store → 2 ≤ s.sp → TargetOk s s.tos →
    ∃ m, step s = .next { s with mem := m, ds := ⟨s.ds.cells, s.sp - 2⟩, ip := s.ip + 1 } ∧
      m.read s.tos.toInt.toNat = s.nos ∧
      (s.tos.toInt.toNat = s.ip + 1 →
        RunsWord { s with mem := m, ds := ⟨s.ds.cells, s.sp - 2⟩, ip := s.ip + 1 } s.nos) ∧
      ∀ u : State, u.wf → u.cfg = s.cfg → u.run = .running →
        u.mem.read s.tos.toInt.toNat = m.read s.tos.toInt.toNat →
        (u.ip = s.tos.toInt.toNat → RunsWord u s.nos) ∧
        (u.ip + 1 = s.tos.toInt.toNat → u.mem.read u.ip = wordOfOp u.cfg.opcodeMap .lit →
          step u = exec (.lit s.nos) u)

/-- 42_control_transfer.md, R136: a `call` or a taken `ccall` and a `return` that finds the words of the return stack as it
left them, whatever stale cells lie above, are a balanced pair: control comes back to the word after the call and the
return stack has its depth and its words again. -/
def Obligations.CallAndReturnBalance : Prop :=
  ∀ (s : State) (i : Instr), s.wf → (i = .call ∧ 1 ≤ s.sp) ∨ (i = .ccall ∧ 2 ≤ s.sp ∧ s.nos ≠ 0) →
    TargetOk s s.tos → s.rp < s.cfg.rsCap → s.ip + 1 < s.cfg.memWords →
    ∃ t, exec i s = .next t ∧ t.ip = s.tos.toInt.toNat ∧ t.rp = s.rp + 1 ∧
      ∀ u : State, u.wf → u.cfg = s.cfg → u.rp = t.rp → u.rs.live = t.rs.live →
        ∃ v, exec .ret u = .next v ∧ v.ip = s.ip + 1 ∧ v.rp = s.rp ∧ v.rs.live = s.rs.live ∧ v.ds = u.ds

/-- 42_control_transfer.md, R136, over whole runs: a step of `call` or taken `ccall`, then any steps, nested calls and their
returns among them, that never bring the return stack down to its depth before the call, then the matching `return`:
control is at the word after the call, and the return stack has its depth and its words of before. -/
def Obligations.MatchingReturnRestoresReturnStack : Prop :=
  ∀ (s t u : State) (n : Nat), s.wf → s.run = .running → s.ip + 1 < s.cfg.memWords →
    s.fetchInstr = .ok .call ∨ s.fetchInstr = .ok .ccall → step s = .next t → t.rp = s.rp + 1 →
    RunsAbove s.rp n t u → u.run = .running → u.fetchInstr = .ok .ret → u.rp = s.rp + 1 →
    ∃ v, step u = .next v ∧ v.run = .running ∧ v.ip = s.ip + 1 ∧ v.rp = s.rp ∧ v.rs.live = s.rs.live

/-- 42_control_transfer.md, R136: no jump, taken or not, touches the return stack. -/
def Obligations.JumpsKeepReturnStack : Prop :=
  ∀ s t : State, exec .jmp s = .next t ∨ exec .cjmp s = .next t → t.rs = s.rs

/-- 41_stack.md, R114 and R115: `push` then `pop` gives both stacks back. -/
def Obligations.PushThenPopRestores : Prop :=
  ∀ s : State, s.wf → 1 ≤ s.sp → s.rp < s.cfg.rsCap →
    ∃ t u, exec .push s = .next t ∧ exec .pop t = .next u ∧
      u.tos = s.tos ∧ u.ds.live = s.ds.live ∧ u.sp = s.sp ∧ u.rp = s.rp ∧ u.rs.live = s.rs.live

/-! ## The host's transactions -/

/-- 70_reset_and_hazards.md R260 and Table RV of R35: what reset leaves, from any state.
Two clauses are the model's choice and in no row of Table RV: no load is on record after reset (`loaded`, log entry 9), and
the parameters, which the model keeps in State, are as before (`cfg`, log entry 2). -/
def Obligations.ResetClearsEverything : Prop :=
  ∀ (s : State) (b : Option BridgeHandle) (x : Context), ∃ t, s.transact (.reset b x) = .next t ∧
    (∀ a, t.mem.read a = 0) ∧
    t.ds.cells = List.replicate s.cfg.dsCap 0 ∧ t.sp = 0 ∧
    t.rs.cells = List.replicate s.cfg.rsCap 0 ∧ t.rp = 0 ∧
    t.ip = 0 ∧ t.run = .running ∧ t.fault = none ∧ t.bridge = b ∧ t.context = x ∧ t.events = [] ∧ t.loaded = false ∧
    t.cfg = s.cfg

/-- 70_reset_and_hazards.md, R262: an image that fits is in memory word for word and the rest is 0; a longer one is
refused (the spec's decision D17, log entry 24); load is no move outside the reset state, to which the model's record of
an earlier load belongs (log entry 9). -/
def Obligations.LoadPlacesTheImage : Prop :=
  (∀ (c : Config) (b : Option BridgeHandle) (x : Context) (image : List Word),
    (image.length ≤ c.memWords →
      ∃ m, (State.resetWith c b x).load image = .next { State.resetWith c b x with mem := m, loaded := true } ∧
        ∀ a, m.read a = if a < image.length then image.getD a 0 else 0) ∧
    (c.memWords < image.length → (State.resetWith c b x).load image = .refused .imageTooLong)) ∧
  (∀ (s : State) (image : List Word), s ≠ State.resetWith s.cfg s.bridge s.context →
    s.load image = .fault .loadOutsideReset)

/-- 70_reset_and_hazards.md R262 and 20_memory.md R65: load is a move at most once, after reset and before the first step:
until the next reset there is none after a load, of whatever image, and none after a step.
The record of the load is the model's own (log entry 9), the rest the spec's decisions D17 and D23 (log entries 24, 10). -/
def Obligations.LoadOnlyOnceBeforeTheFirstStep : Prop :=
  (∀ (s t u : State) (image : List Word) (moves : List Transaction), s.load image = .next t →
    (∀ m ∈ moves, m = .step ∨ m = .inspect) → afterMoves moves t = some u →
    ∀ again, u.load again = .fault .loadOutsideReset) ∧
  (∀ (c : Config) (b : Option BridgeHandle) (x : Context) (u : State) (moves : List Transaction),
    (∀ m ∈ moves, m = .step ∨ m = .inspect) → .step ∈ moves →
    afterMoves moves (State.resetWith c b x) = some u →
    ∀ image, u.load image = .fault .loadOutsideReset)

/-- 70_reset_and_hazards.md, R267 (Table H) with 10_state.md, R31: whatever the host does, in any order, from any
well-formed state, the machine's invariants hold. -/
def Obligations.HostMovesKeepWellFormed : Prop :=
  ∀ (moves : List Transaction) (s t : State), s.wf → s.haltedAtStop →
    moves.foldlM (m := Option) (fun u m => match u.transact m with | .next v => some v | _ => none) s = some t →
    t.wf ∧ t.haltedAtStop

/-! ## Results and completion, instruction by instruction -/

/-- 40_machine_control.md, R100. -/
def Obligations.NopOnlyAdvances : Prop :=
  ∀ s : State, exec .nop s = .next { s with ip := s.ip + 1 }

/-- 40_machine_control.md, R101. -/
def Obligations.StopHaltsInPlace : Prop :=
  ∀ s : State, exec .stop s = .next { s with run := .halted }

/-- 41_stack.md, R110 (the immediate-fetch fault is the spec's decision D6, log entry 12). -/
def Obligations.LitPushesItsImmediate : Prop :=
  ∀ (s : State) (imm : Word), s.wf →
    (s.ip + 1 < s.cfg.memWords → s.sp < s.cfg.dsCap →
      exec (.lit imm) s = .next { s with ds := ⟨s.ds.cells.set s.sp imm, s.sp + 1⟩, ip := s.ip + 2 }) ∧
    (s.ip + 1 < s.cfg.memWords → s.sp = s.cfg.dsCap →
      exec (.lit imm) s = .next (s.takeFault (.stackOverflow .data .push))) ∧
    (s.cfg.memWords ≤ s.ip + 1 →
      exec (.lit imm) s = .next (s.takeFault (.memoryOutOfRange .ifetch (BitVec.ofNat 32 (s.ip + 1)))))

/-- 41_stack.md, R111 (a full stack overflows by the spec's decision D15, log entry 22). -/
def Obligations.DupCopiesTheTop : Prop :=
  ∀ s : State, s.wf →
    (1 ≤ s.sp → s.sp < s.cfg.dsCap →
      exec .dup s = .next { s with ds := ⟨s.ds.cells.set s.sp s.tos, s.sp + 1⟩, ip := s.ip + 1 }) ∧
    (s.sp = 0 → exec .dup s = .next (s.takeFault (.stackUnderflow .data .pop))) ∧
    (s.sp = s.cfg.dsCap → exec .dup s = .next (s.takeFault (.stackOverflow .data .push)))

/-- 41_stack.md, R112. -/
def Obligations.DropRemovesTheTop : Prop :=
  ∀ s : State,
    (1 ≤ s.sp → exec .drop s = .next { s with ds := ⟨s.ds.cells, s.sp - 1⟩, ip := s.ip + 1 }) ∧
    (s.sp = 0 → exec .drop s = .next (s.takeFault (.stackUnderflow .data .pop)))

/-- 41_stack.md, R113. -/
def Obligations.SwapExchangesTopTwo : Prop :=
  ∀ s : State, s.wf →
    (2 ≤ s.sp → exec .swap s =
      .next { s with ds := ⟨(s.ds.cells.set (s.sp - 2) s.tos).set (s.sp - 1) s.nos, s.sp⟩, ip := s.ip + 1 }) ∧
    (s.sp < 2 → exec .swap s = .next (s.takeFault (.stackUnderflow .data .pop)))

/-- 41_stack.md, R114. -/
def Obligations.PushMovesToReturnStack : Prop :=
  ∀ s : State, s.wf →
    (1 ≤ s.sp → s.rp < s.cfg.rsCap → exec .push s =
      .next { s with ds := ⟨s.ds.cells, s.sp - 1⟩, rs := ⟨s.rs.cells.set s.rp s.tos, s.rp + 1⟩, ip := s.ip + 1 }) ∧
    (s.sp = 0 → exec .push s = .next (s.takeFault (.stackUnderflow .data .pop))) ∧
    (1 ≤ s.sp → s.rp = s.cfg.rsCap → exec .push s = .next (s.takeFault (.stackOverflow .ret .push)))

/-- 41_stack.md, R115. -/
def Obligations.PopMovesToDataStack : Prop :=
  ∀ s : State, s.wf →
    (1 ≤ s.rp → s.sp < s.cfg.dsCap → exec .pop s =
      .next { s with rs := ⟨s.rs.cells, s.rp - 1⟩, ds := ⟨s.ds.cells.set s.sp (s.rs.peek 0), s.sp + 1⟩,
                     ip := s.ip + 1 }) ∧
    (s.rp = 0 → exec .pop s = .next (s.takeFault (.stackUnderflow .ret .pop))) ∧
    (1 ≤ s.rp → s.sp = s.cfg.dsCap → exec .pop s = .next (s.takeFault (.stackOverflow .data .push)))

/-- 42_control_transfer.md, R130 (the target check is the spec's decision D5, log entry 11). -/
def Obligations.JmpTransfers : Prop :=
  ∀ s : State,
    (1 ≤ s.sp → TargetOk s s.tos → exec .jmp s =
      .next { s with ds := ⟨s.ds.cells, s.sp - 1⟩, ip := s.tos.toInt.toNat }) ∧
    (s.sp = 0 → exec .jmp s = .next (s.takeFault (.stackUnderflow .data .pop))) ∧
    (1 ≤ s.sp → ¬TargetOk s s.tos → exec .jmp s = .next (s.takeFault (.memoryOutOfRange .target s.tos)))

/-- 42_control_transfer.md, R131 (an unexamined target when not taken is the spec's decision D5, log entry 11). -/
def Obligations.CjmpTransfersOnCondition : Prop :=
  ∀ s : State,
    (2 ≤ s.sp → s.nos ≠ 0 → TargetOk s s.tos → exec .cjmp s =
      .next { s with ds := ⟨s.ds.cells, s.sp - 2⟩, ip := s.tos.toInt.toNat }) ∧
    (2 ≤ s.sp → s.nos = 0 → exec .cjmp s =
      .next { s with ds := ⟨s.ds.cells, s.sp - 2⟩, ip := s.ip + 1 }) ∧
    (s.sp < 2 → exec .cjmp s = .next (s.takeFault (.stackUnderflow .data .pop))) ∧
    (2 ≤ s.sp → s.nos ≠ 0 → ¬TargetOk s s.tos →
      exec .cjmp s = .next (s.takeFault (.memoryOutOfRange .target s.tos)))

/-- 42_control_transfer.md, R132 (the target check is the spec's decision D5, log entry 11). -/
def Obligations.CallSavesReturnAddress : Prop :=
  ∀ s : State, s.wf →
    (1 ≤ s.sp → TargetOk s s.tos → s.rp < s.cfg.rsCap → exec .call s =
      .next { s with ds := ⟨s.ds.cells, s.sp - 1⟩,
                     rs := ⟨s.rs.cells.set s.rp (BitVec.ofNat 32 (s.ip + 1)), s.rp + 1⟩,
                     ip := s.tos.toInt.toNat }) ∧
    (s.sp = 0 → exec .call s = .next (s.takeFault (.stackUnderflow .data .pop))) ∧
    (1 ≤ s.sp → ¬TargetOk s s.tos → exec .call s = .next (s.takeFault (.memoryOutOfRange .target s.tos))) ∧
    (1 ≤ s.sp → TargetOk s s.tos → s.rp = s.cfg.rsCap →
      exec .call s = .next (s.takeFault (.stackOverflow .ret .push)))

/-- 42_control_transfer.md, R133 (the target check is the spec's decision D5, log entry 11). -/
def Obligations.CcallCallsOnCondition : Prop :=
  ∀ s : State, s.wf →
    (2 ≤ s.sp → s.nos ≠ 0 → TargetOk s s.tos → s.rp < s.cfg.rsCap → exec .ccall s =
      .next { s with ds := ⟨s.ds.cells, s.sp - 2⟩,
                     rs := ⟨s.rs.cells.set s.rp (BitVec.ofNat 32 (s.ip + 1)), s.rp + 1⟩,
                     ip := s.tos.toInt.toNat }) ∧
    (2 ≤ s.sp → s.nos = 0 → exec .ccall s =
      .next { s with ds := ⟨s.ds.cells, s.sp - 2⟩, ip := s.ip + 1 }) ∧
    (s.sp < 2 → exec .ccall s = .next (s.takeFault (.stackUnderflow .data .pop))) ∧
    (2 ≤ s.sp → s.nos ≠ 0 → ¬TargetOk s s.tos →
      exec .ccall s = .next (s.takeFault (.memoryOutOfRange .target s.tos))) ∧
    (2 ≤ s.sp → s.nos ≠ 0 → TargetOk s s.tos → s.rp = s.cfg.rsCap →
      exec .ccall s = .next (s.takeFault (.stackOverflow .ret .push)))

/-- 42_control_transfer.md, R134 (the target check is the spec's decision D5, log entry 11). -/
def Obligations.ReturnPopsIntoIp : Prop :=
  ∀ s : State,
    (1 ≤ s.rp → TargetOk s (s.rs.peek 0) → exec .ret s =
      .next { s with rs := ⟨s.rs.cells, s.rp - 1⟩, ip := (s.rs.peek 0).toInt.toNat }) ∧
    (s.rp = 0 → exec .ret s = .next (s.takeFault (.stackUnderflow .ret .pop))) ∧
    (1 ≤ s.rp → ¬TargetOk s (s.rs.peek 0) →
      exec .ret s = .next (s.takeFault (.memoryOutOfRange .target (s.rs.peek 0))))

/-- 43_memory_access.md, R150. -/
def Obligations.FetchPushesTheCell : Prop :=
  ∀ s : State, s.wf →
    (1 ≤ s.sp → TargetOk s s.tos → exec .fetch s =
      .next { s with ds := ⟨s.ds.cells.set (s.sp - 1) (s.mem.read s.tos.toInt.toNat), s.sp⟩, ip := s.ip + 1 }) ∧
    (s.sp = 0 → exec .fetch s = .next (s.takeFault (.stackUnderflow .data .pop))) ∧
    (1 ≤ s.sp → ¬TargetOk s s.tos → exec .fetch s = .next (s.takeFault (.memoryOutOfRange .fetch s.tos)))

/-- 43_memory_access.md, R151: NOS goes to the cell TOS names; every other cell reads as before. -/
def Obligations.StoreWritesOneCell : Prop :=
  ∀ s : State, s.wf →
    (2 ≤ s.sp → TargetOk s s.tos →
      ∃ m, exec .store s = .next { s with mem := m, ds := ⟨s.ds.cells, s.sp - 2⟩, ip := s.ip + 1 } ∧
        m.read s.tos.toInt.toNat = s.nos ∧ ∀ a, a ≠ s.tos.toInt.toNat → m.read a = s.mem.read a) ∧
    (s.sp < 2 → exec .store s = .next (s.takeFault (.stackUnderflow .data .pop))) ∧
    (2 ≤ s.sp → ¬TargetOk s s.tos → exec .store s = .next (s.takeFault (.memoryOutOfRange .store s.tos)))

/-- 44_arithmetic.md, R160 (wrap-around is the spec's decision D11, log entry 17). -/
def Obligations.AddWraps : Prop :=
  BinaryEffect .add fun a b r => (r.toNat : Int) = (a.toInt + b.toInt) % 2 ^ 32

/-- 44_arithmetic.md, R161 (the order is the spec's decision D12, wrap-around D11, log entries 17 and 18). -/
def Obligations.SubWraps : Prop :=
  BinaryEffect .sub fun a b r => (r.toNat : Int) = (a.toInt - b.toInt) % 2 ^ 32

/-- 44_arithmetic.md, R162 (wrap-around is the spec's decision D11, log entry 17). -/
def Obligations.MulWraps : Prop :=
  BinaryEffect .mul fun a b r => (r.toNat : Int) = (a.toInt * b.toInt) % 2 ^ 32

/-- 44_arithmetic.md, R163 with R13: the quotient rounds toward zero, the remainder has the dividend's sign, and
`INT_MIN /% -1` wraps (the spec's decision D13, log entry 19). -/
def Obligations.DivmodTruncates : Prop :=
  ∀ s : State, s.wf →
    (2 ≤ s.sp → s.tos ≠ 0 → ∃ q r : Int,
      s.nos.toInt = q * s.tos.toInt + r ∧ |r| < |s.tos.toInt| ∧ (r ≠ 0 → (r < 0 ↔ s.nos.toInt < 0)) ∧
      exec .divmod s = .next { s with
        ds := ⟨(s.ds.cells.set (s.sp - 2) (BitVec.ofInt 32 q)).set (s.sp - 1) (BitVec.ofInt 32 r), s.sp⟩,
        ip := s.ip + 1 }) ∧
    (s.sp < 2 → exec .divmod s = .next (s.takeFault (.stackUnderflow .data .pop))) ∧
    (2 ≤ s.sp → s.tos = 0 → exec .divmod s = .next (s.takeFault .divisionByZero))

/-- 45_comparison.md, R180 and R181: equality of all 32 bits, and its complement. -/
def Obligations.EqAndNeCompareWords : Prop :=
  BinaryEffect .eq (fun a b r => r = truthWord (a = b)) ∧
  BinaryEffect .ne (fun a b r => r = truthWord (a ≠ b))

/-- 45_comparison.md, R182 and R183 (order and signedness are the spec's decision D12, log entry 18). -/
def Obligations.LtAndGtCompareSigned : Prop :=
  BinaryEffect .lt (fun a b r => r = truthWord (a.toInt < b.toInt)) ∧
  BinaryEffect .gt (fun a b r => r = truthWord (a.toInt > b.toInt))

/-- 46_bitwise_shift.md, R190 to R192: bit by bit. -/
def Obligations.BitwiseActsOnEachBit : Prop :=
  BinaryEffect .and (fun a b r => ∀ i < 32, r.getLsbD i = (a.getLsbD i && b.getLsbD i)) ∧
  BinaryEffect .or (fun a b r => ∀ i < 32, r.getLsbD i = (a.getLsbD i || b.getLsbD i)) ∧
  BinaryEffect .xor (fun a b r => ∀ i < 32, r.getLsbD i = (a.getLsbD i ^^ b.getLsbD i))

/-- 46_bitwise_shift.md, R193: `a * 2^b` for a positive count, else `floor(a / 2^-b)`, for every count
(the spec's decision D14, log entry 20). -/
def Obligations.ShiftIsMathematical : Prop :=
  BinaryEffect .shift fun a b r =>
    (0 < b.toInt → (r.toNat : Int) = (a.toInt * 2 ^ b.toInt.toNat) % 2 ^ 32) ∧
    (b.toInt ≤ 0 → r.toInt = ⌊(a.toInt : ℚ) / 2 ^ (-b.toInt).toNat⌋)

/-- 47_syscall.md, R199 (the argument order rests on the conflicts C2 and C3, log entry 25), R200 to R205 and R210: the number
is popped first and `arg0` last; every syscall sends one event with the unused arguments 0 and the stored context, with no
bridge attached as well (the spec's decision D16, log entry 10). -/
def Obligations.SyscallsSendArgumentsInOrder : Prop :=
  ∀ s : State,
    (1 ≤ s.sp → exec .syscall0 s =
      .next { s with ds := ⟨s.ds.cells, s.sp - 1⟩, ip := s.ip + 1,
                     events := s.events ++ [⟨s.tos, 0, 0, 0, 0, s.context⟩] }) ∧
    (2 ≤ s.sp → exec .syscall1 s =
      .next { s with ds := ⟨s.ds.cells, s.sp - 2⟩, ip := s.ip + 1,
                     events := s.events ++ [⟨s.tos, s.nos, 0, 0, 0, s.context⟩] }) ∧
    (3 ≤ s.sp → exec .syscall2 s =
      .next { s with ds := ⟨s.ds.cells, s.sp - 3⟩, ip := s.ip + 1,
                     events := s.events ++ [⟨s.tos, s.ds.peek 2, s.nos, 0, 0, s.context⟩] }) ∧
    (4 ≤ s.sp → exec .syscall3 s =
      .next { s with ds := ⟨s.ds.cells, s.sp - 4⟩, ip := s.ip + 1,
                     events := s.events ++ [⟨s.tos, s.ds.peek 3, s.ds.peek 2, s.nos, 0, s.context⟩] }) ∧
    (5 ≤ s.sp → exec .syscall4 s =
      .next { s with ds := ⟨s.ds.cells, s.sp - 5⟩, ip := s.ip + 1,
                     events := s.events ++
                       [⟨s.tos, s.ds.peek 4, s.ds.peek 3, s.ds.peek 2, s.nos, s.context⟩] })

/-- 47_syscall.md, R200 to R204 with 60_exceptions.md, R228: a syscall with too few words takes StackUnderflow and sends
no event. -/
def Obligations.SyscallsUnderflowSendNothing : Prop :=
  ∀ s : State,
    (s.sp < 1 → exec .syscall0 s = .next (s.takeFault (.stackUnderflow .data .pop))) ∧
    (s.sp < 2 → exec .syscall1 s = .next (s.takeFault (.stackUnderflow .data .pop))) ∧
    (s.sp < 3 → exec .syscall2 s = .next (s.takeFault (.stackUnderflow .data .pop))) ∧
    (s.sp < 4 → exec .syscall3 s = .next (s.takeFault (.stackUnderflow .data .pop))) ∧
    (s.sp < 5 → exec .syscall4 s = .next (s.takeFault (.stackUnderflow .data .pop))) ∧
    (s.takeFault (.stackUnderflow .data .pop)).events = s.events
end

