-- ==== Sys2Proof/Laws/Decode.lean ====
section
/-! SUPPORT. The opcode map is a bijection; each piece of the decoder against its counterpart in the encoder. -/

namespace Sys2Proof

theorem mem_defaultOpcodeMap (o : Op) : o ∈ defaultOpcodeMap := by cases o <;> decide

/-- A well-formed opcode map names every mnemonic: 32 entries, none twice, out of 32. -/
theorem OpcodeMapWf.mem {map : List Op} (h : OpcodeMapWf map) (o : Op) : o ∈ map := by
  have hsub : map.Subperm defaultOpcodeMap :=
    List.subperm_of_subset h.2 fun o _ => mem_defaultOpcodeMap o
  have hlen : defaultOpcodeMap.length ≤ map.length := by rw [h.1]; decide
  exact (hsub.perm_of_length_le hlen).mem_iff.mpr (mem_defaultOpcodeMap o)

theorem defaultOpcodeMap_wf : OpcodeMapWf defaultOpcodeMap := by decide

theorem OpcodeMapWf.idxOf_lt {map : List Op} (h : OpcodeMapWf map) (o : Op) : map.idxOf o < 32 :=
  h.1 ▸ List.idxOf_lt_length_iff.mpr (h.mem o)

theorem wordOfOp_toNat {map : List Op} (h : OpcodeMapWf map) (o : Op) :
    (wordOfOp map o).toNat = map.idxOf o := by
  have := h.idxOf_lt o
  simp only [wordOfOp, BitVec.toNat_ofNat]
  omega

/-- The opcode word of a mnemonic selects it. -/
theorem opOfWord_wordOfOp {map : List Op} (h : OpcodeMapWf map) (o : Op) :
    opOfWord map (wordOfOp map o) = some o := by
  have hlt := h.idxOf_lt o
  have hlen : map.idxOf o < map.length := by rw [h.1]; exact hlt
  rw [opOfWord, wordOfOp_toNat h, if_neg (by omega), List.getElem?_eq_getElem hlen,
    List.getElem_idxOf]

/-- A word that selects a mnemonic is its opcode word. -/
theorem wordOfOp_of_opOfWord {map : List Op} (h : OpcodeMapWf map) {w : Word} {o : Op}
    (hw : opOfWord map w = some o) : wordOfOp map o = w := by
  unfold opOfWord at hw
  split at hw
  · cases hw
  · obtain ⟨hlt, rfl⟩ := List.getElem?_eq_some_iff.mp hw
    have : map.idxOf map[w.toNat] = w.toNat := h.2.idxOf_getElem w.toNat hlt
    simp [wordOfOp, this]

/-- Outside the enumeration no word selects a mnemonic (R85). -/
theorem opOfWord_of_gt {map : List Op} {w : Word} (hw : 0x1F < w.toNat) : opOfWord map w = none :=
  if_pos hw

/-- Inside the enumeration every word selects one (R84). -/
theorem opOfWord_of_le {map : List Op} (h : OpcodeMapWf map) {w : Word} (hw : w.toNat ≤ 0x1F) :
    ∃ o, opOfWord map w = some o := by
  have hlt : w.toNat < map.length := by rw [h.1]; omega
  exact ⟨map[w.toNat], by rw [opOfWord, if_neg (by omega), List.getElem?_eq_getElem hlt]⟩

theorem oneWord_op {o : Op} {i : Instr} (h : o.oneWord = some i) :
    i.op = o ∧ i.operandWords = [] := by
  cases o <;> first | (cases h; exact ⟨rfl, rfl⟩) | cases h

theorem oneWord_none {o : Op} (h : o.oneWord = none) : o = .lit := by
  cases o <;> first | rfl | cases h

theorem oneWord_of_op {i : Instr} (h : i.op ≠ .lit) : i.op.oneWord = some i := by
  cases i <;> first | rfl | exact absurd rfl h

/-- A decoded instruction is the head of the words: its opcode word, its operand words, the rest. -/
theorem decode_inv {map : List Op} {ws rest : List Word} {i : Instr}
    (h : decode map ws = .ok (i, rest)) :
    ∃ w, opOfWord map w = some i.op ∧ ws = w :: (i.operandWords ++ rest) := by
  cases ws with
  | nil => cases h
  | cons w ws =>
    simp only [decode] at h
    split at h
    · cases h
    · rename_i o ho
      split at h
      · rename_i j hj
        cases h
        obtain ⟨rfl, hop⟩ := oneWord_op hj
        exact ⟨w, ho, by simp [hop]⟩
      · rename_i hn
        cases oneWord_none hn
        cases ws with
        | nil => cases h
        | cons imm ws => cases h; exact ⟨w, ho, rfl⟩

end Sys2Proof
end

