-- ==== Sys2Proof/Laws/Memory.lean ====
section
/-! SUPPORT. Memory: read after write, the canonical form kept by every operation, equal reads make equal memories. -/

namespace Sys2Proof.Machine

@[simp] theorem Memory.read_nil (a : Nat) : Memory.read [] a = Memory.unlisted := rfl

theorem Memory.read_cons (b : Nat) (w : Word) (m : Memory) (a : Nat) :
    Memory.read ((b, w) :: m) a = if a = b then w else m.read a := rfl

/-- An address below every listed one reads as unlisted. -/
theorem Memory.read_below {m : Memory} {a : Nat} (h : ∀ p ∈ m, a < p.1) :
    m.read a = Memory.unlisted := by
  induction m with
  | nil => rfl
  | cons p m ih =>
    obtain ⟨b, w⟩ := p
    have hb : a < b := h (b, w) (by simp)
    rw [Memory.read_cons, if_neg (by omega)]
    exact ih fun q hq => h q (List.mem_cons_of_mem _ hq)

/-- Placing a word in front of higher cells: what every address then reads as. -/
theorem Memory.read_place {m : Memory} {a : Nat} (h : ∀ p ∈ m, a < p.1) (v : Word) (b : Nat) :
    (Memory.place a v m).read b = if b = a then v else m.read b := by
  unfold Memory.place
  by_cases hv : v = Memory.unlisted
  · rw [if_pos hv]
    by_cases hb : b = a
    · subst hb; rw [if_pos rfl, Memory.read_below h, hv]
    · rw [if_neg hb]
  · rw [if_neg hv, Memory.read_cons]

theorem Memory.mem_place {a : Nat} {v : Word} {m : Memory} {p : Nat × Word}
    (h : p ∈ Memory.place a v m) : (p = (a, v) ∧ v ≠ Memory.unlisted) ∨ p ∈ m := by
  unfold Memory.place at h
  split at h
  · exact .inr h
  · rename_i hv
    rcases List.mem_cons.mp h with h | h
    · exact .inl ⟨h, hv⟩
    · exact .inr h

/-- Every cell after a write is the one written or one that was there. -/
theorem Memory.mem_write {m : Memory} {a : Nat} {v : Word} {p : Nat × Word}
    (h : p ∈ m.write a v) : (p = (a, v) ∧ v ≠ Memory.unlisted) ∨ p ∈ m := by
  induction m with
  | nil => exact Memory.mem_place h
  | cons q m ih =>
    obtain ⟨b, w⟩ := q
    unfold Memory.write at h
    split at h
    · exact Memory.mem_place h
    · split at h
      · exact (Memory.mem_place h).imp id (List.mem_cons_of_mem _)
      · rcases List.mem_cons.mp h with h | h
        · exact .inr (by simp [h])
        · exact (ih h).imp id (List.mem_cons_of_mem _)

theorem Memory.place_wf {m : Memory} {a : Nat} {v : Word} (hm : m.wf) (h : ∀ p ∈ m, a < p.1) :
    (Memory.place a v m).wf := by
  unfold Memory.place
  split
  · exact hm
  · rename_i hv
    refine ⟨List.pairwise_cons.mpr ⟨h, hm.1⟩, fun p hp => ?_⟩
    rcases List.mem_cons.mp hp with rfl | hp
    · exact hv
    · exact hm.2 p hp

theorem Memory.wf_tail {p : Nat × Word} {m : Memory} (h : Memory.wf (p :: m)) : m.wf :=
  ⟨(List.pairwise_cons.mp h.1).2, fun q hq => h.2 q (List.mem_cons_of_mem _ hq)⟩

theorem Memory.wf_head {p : Nat × Word} {m : Memory} (h : Memory.wf (p :: m)) :
    ∀ q ∈ m, p.1 < q.1 :=
  (List.pairwise_cons.mp h.1).1

/-- A write keeps the canonical form. -/
theorem Memory.write_wf {m : Memory} (hm : m.wf) (a : Nat) (v : Word) : (m.write a v).wf := by
  induction m with
  | nil => exact Memory.place_wf hm (by simp)
  | cons p m ih =>
    obtain ⟨b, w⟩ := p
    have hlt := Memory.wf_head hm
    unfold Memory.write
    split
    · rename_i hab
      refine Memory.place_wf hm fun q hq => ?_
      rcases List.mem_cons.mp hq with rfl | hq
      · exact hab
      · exact Nat.lt_trans hab (hlt q hq)
    · split
      · rename_i hab; subst hab; exact Memory.place_wf (Memory.wf_tail hm) hlt
      · rename_i h1 h2
        have ih := ih (Memory.wf_tail hm)
        refine ⟨List.pairwise_cons.mpr ⟨fun q hq => ?_, ih.1⟩, fun q hq => ?_⟩
        · rcases Memory.mem_write hq with ⟨rfl, -⟩ | hq
          · show b < a; omega
          · exact hlt q hq
        · rcases List.mem_cons.mp hq with rfl | hq
          · exact hm.2 _ (by simp)
          · exact ih.2 q hq

/-- What every address reads as after a write (R57). -/
theorem Memory.read_write {m : Memory} (hm : m.wf) (a : Nat) (v : Word) (b : Nat) :
    (m.write a v).read b = if b = a then v else m.read b := by
  induction m with
  | nil => exact Memory.read_place (by simp) v b
  | cons p m ih =>
    obtain ⟨c, w⟩ := p
    have hlt := Memory.wf_head hm
    unfold Memory.write
    split
    · rename_i hac
      refine Memory.read_place (fun q hq => ?_) v b
      rcases List.mem_cons.mp hq with rfl | hq
      · exact hac
      · exact Nat.lt_trans hac (hlt q hq)
    · split
      · rename_i hac; subst hac
        rw [Memory.read_place hlt, Memory.read_cons]
        by_cases hb : b = a <;> simp [hb]
      · rename_i h1 h2
        rw [Memory.read_cons, Memory.read_cons, ih (Memory.wf_tail hm)]
        by_cases hb : b = c
        · subst hb; simp only [if_true]; rw [if_neg]; omega
        · simp only [if_neg hb]

theorem Memory.read_write_same {m : Memory} (hm : m.wf) (a : Nat) (v : Word) :
    (m.write a v).read a = v := by
  rw [Memory.read_write hm, if_pos rfl]

theorem Memory.read_write_other {m : Memory} (hm : m.wf) {a b : Nat} (h : b ≠ a) (v : Word) :
    (m.write a v).read b = m.read b := by
  rw [Memory.read_write hm, if_neg h]

/-- A write inside memory lists no cell outside it. -/
theorem Memory.write_bound {m : Memory} {n : Nat} (hm : ∀ p ∈ m, p.1 < n) {a : Nat} (ha : a < n)
    (v : Word) : ∀ p ∈ m.write a v, p.1 < n := by
  intro p hp
  rcases Memory.mem_write hp with ⟨rfl, -⟩ | hp
  · exact ha
  · exact hm p hp

theorem Memory.writeWords_wf (ws : List Word) : ∀ {m : Memory}, m.wf → ∀ a, (m.writeWords a ws).wf := by
  induction ws with
  | nil => exact fun hm _ => hm
  | cons w ws ih => exact fun hm a => ih (Memory.write_wf hm a w) (a + 1)

theorem Memory.writeWords_bound (ws : List Word) : ∀ {m : Memory} {n : Nat}, (∀ p ∈ m, p.1 < n) →
    ∀ {a}, a + ws.length ≤ n → ∀ p ∈ m.writeWords a ws, p.1 < n := by
  induction ws with
  | nil => exact fun hm _ _ => hm
  | cons w ws ih =>
    intro m n hm a ha
    simp only [List.length_cons] at ha
    exact ih (Memory.write_bound hm (by omega) w) (by omega)

/-- What every address reads as after a run of words is written from `a` on (R262). -/
theorem Memory.read_writeWords (ws : List Word) : ∀ {m : Memory}, m.wf → ∀ a b,
    (m.writeWords a ws).read b = if a ≤ b ∧ b < a + ws.length then ws.getD (b - a) 0 else m.read b := by
  induction ws with
  | nil =>
    intro m _ a b
    show m.read b = _
    rw [if_neg]; simp only [List.length_nil]; omega
  | cons w ws ih =>
    intro m hm a b
    show (Memory.writeWords (m.write a w) (a + 1) ws).read b = _
    rw [ih (Memory.write_wf hm a w), Memory.read_write hm]
    simp only [List.length_cons]
    by_cases hb : b = a
    · subst hb
      rw [if_neg (by omega), if_pos rfl, if_pos (by omega)]; simp
    · by_cases h : a + 1 ≤ b ∧ b < a + 1 + ws.length
      · rw [if_pos h, if_pos (by omega)]
        obtain ⟨k, rfl⟩ : ∃ k, b = a + 1 + k := ⟨b - (a + 1), by omega⟩
        rw [show a + 1 + k - (a + 1) = k by omega, show a + 1 + k - a = k + 1 by omega]
        rfl
      · rw [if_neg h, if_neg hb, if_neg (by omega)]

/-- In canonical form, equal reads make equal memories. -/
theorem Memory.ext_read {m n : Memory} (hm : m.wf) (hn : n.wf) (h : ∀ a, m.read a = n.read a) :
    m = n := by
  induction m generalizing n with
  | nil =>
    cases n with
    | nil => rfl
    | cons q n =>
      have := h q.1
      rw [Memory.read_cons, if_pos rfl] at this
      exact absurd this.symm (hn.2 q (by simp))
  | cons p m ih =>
    cases n with
    | nil =>
      have := h p.1
      rw [Memory.read_cons, if_pos rfl] at this
      exact absurd this (hm.2 p (by simp))
    | cons q n =>
      obtain ⟨a, v⟩ := p
      obtain ⟨b, w⟩ := q
      have hlm := Memory.wf_head hm
      have hln := Memory.wf_head hn
      have hab : a = b := by
        by_contra hne
        rcases Nat.lt_or_gt_of_ne hne with hlt | hlt
        · have := h a
          rw [Memory.read_cons, if_pos rfl, Memory.read_cons, if_neg hne,
            Memory.read_below fun q hq => Nat.lt_trans hlt (hln q hq)] at this
          exact hm.2 (a, v) (by simp) this
        · have := h b
          rw [Memory.read_cons, if_neg (Ne.symm hne), Memory.read_cons, if_pos rfl,
            Memory.read_below fun q hq => Nat.lt_trans hlt (hlm q hq)] at this
          exact hn.2 (b, w) (by simp) this.symm
      subst hab
      have hvw : v = w := by simpa [Memory.read_cons] using h a
      subst hvw
      congr 1
      refine ih (Memory.wf_tail hm) (Memory.wf_tail hn) fun c => ?_
      by_cases hc : c = a
      · subst hc; rw [Memory.read_below hlm, Memory.read_below hln]
      · have := h c
        rwa [Memory.read_cons, if_neg hc, Memory.read_cons, if_neg hc] at this

end Sys2Proof.Machine
end

