-- ==== Sys2Proof/Laws/State.lean ====
section
/-! SUPPORT. One lemma per field per state update, so that no proof unfolds a record update. -/

namespace Sys2Proof.Machine

variable (s : State)

@[simp] theorem State.setIp_cfg (t : Nat) : (s.setIp t).cfg = s.cfg := rfl
@[simp] theorem State.setIp_mem (t : Nat) : (s.setIp t).mem = s.mem := rfl
@[simp] theorem State.setIp_ds (t : Nat) : (s.setIp t).ds = s.ds := rfl
@[simp] theorem State.setIp_rs (t : Nat) : (s.setIp t).rs = s.rs := rfl
@[simp] theorem State.setIp_ip (t : Nat) : (s.setIp t).ip = t := rfl
@[simp] theorem State.setIp_run (t : Nat) : (s.setIp t).run = s.run := rfl
@[simp] theorem State.setIp_fault (t : Nat) : (s.setIp t).fault = s.fault := rfl
@[simp] theorem State.setIp_bridge (t : Nat) : (s.setIp t).bridge = s.bridge := rfl
@[simp] theorem State.setIp_context (t : Nat) : (s.setIp t).context = s.context := rfl
@[simp] theorem State.setIp_events (t : Nat) : (s.setIp t).events = s.events := rfl
@[simp] theorem State.setIp_loaded (t : Nat) : (s.setIp t).loaded = s.loaded := rfl

@[simp] theorem State.advance_cfg : s.advance.cfg = s.cfg := rfl
@[simp] theorem State.advance_mem : s.advance.mem = s.mem := rfl
@[simp] theorem State.advance_ds : s.advance.ds = s.ds := rfl
@[simp] theorem State.advance_rs : s.advance.rs = s.rs := rfl
@[simp] theorem State.advance_ip : s.advance.ip = s.ip + 1 := rfl
@[simp] theorem State.advance_run : s.advance.run = s.run := rfl
@[simp] theorem State.advance_fault : s.advance.fault = s.fault := rfl
@[simp] theorem State.advance_bridge : s.advance.bridge = s.bridge := rfl
@[simp] theorem State.advance_context : s.advance.context = s.context := rfl
@[simp] theorem State.advance_events : s.advance.events = s.events := rfl
@[simp] theorem State.advance_loaded : s.advance.loaded = s.loaded := rfl

@[simp] theorem State.memWrite_cfg (a : Nat) (v : Word) : (s.memWrite a v).cfg = s.cfg := rfl
@[simp] theorem State.memWrite_mem (a : Nat) (v : Word) : (s.memWrite a v).mem = s.mem.write a v := rfl
@[simp] theorem State.memWrite_ds (a : Nat) (v : Word) : (s.memWrite a v).ds = s.ds := rfl
@[simp] theorem State.memWrite_rs (a : Nat) (v : Word) : (s.memWrite a v).rs = s.rs := rfl
@[simp] theorem State.memWrite_ip (a : Nat) (v : Word) : (s.memWrite a v).ip = s.ip := rfl
@[simp] theorem State.memWrite_run (a : Nat) (v : Word) : (s.memWrite a v).run = s.run := rfl
@[simp] theorem State.memWrite_fault (a : Nat) (v : Word) : (s.memWrite a v).fault = s.fault := rfl
@[simp] theorem State.memWrite_bridge (a : Nat) (v : Word) : (s.memWrite a v).bridge = s.bridge := rfl
@[simp] theorem State.memWrite_context (a : Nat) (v : Word) : (s.memWrite a v).context = s.context := rfl
@[simp] theorem State.memWrite_events (a : Nat) (v : Word) : (s.memWrite a v).events = s.events := rfl
@[simp] theorem State.memWrite_loaded (a : Nat) (v : Word) : (s.memWrite a v).loaded = s.loaded := rfl

@[simp] theorem State.emit_cfg (n a b c d : Word) : (s.emit n a b c d).cfg = s.cfg := rfl
@[simp] theorem State.emit_mem (n a b c d : Word) : (s.emit n a b c d).mem = s.mem := rfl
@[simp] theorem State.emit_ds (n a b c d : Word) : (s.emit n a b c d).ds = s.ds := rfl
@[simp] theorem State.emit_rs (n a b c d : Word) : (s.emit n a b c d).rs = s.rs := rfl
@[simp] theorem State.emit_ip (n a b c d : Word) : (s.emit n a b c d).ip = s.ip := rfl
@[simp] theorem State.emit_run (n a b c d : Word) : (s.emit n a b c d).run = s.run := rfl
@[simp] theorem State.emit_fault (n a b c d : Word) : (s.emit n a b c d).fault = s.fault := rfl
@[simp] theorem State.emit_bridge (n a b c d : Word) : (s.emit n a b c d).bridge = s.bridge := rfl
@[simp] theorem State.emit_context (n a b c d : Word) : (s.emit n a b c d).context = s.context := rfl
@[simp] theorem State.emit_events (n a b c d : Word) : (s.emit n a b c d).events = s.events ++ [⟨n, a, b, c, d, s.context⟩] := rfl
@[simp] theorem State.emit_loaded (n a b c d : Word) : (s.emit n a b c d).loaded = s.loaded := rfl

@[simp] theorem State.takeFault_cfg (c : FaultCause) : (s.takeFault c).cfg = s.cfg := rfl
@[simp] theorem State.takeFault_mem (c : FaultCause) : (s.takeFault c).mem = s.mem := rfl
@[simp] theorem State.takeFault_ds (c : FaultCause) : (s.takeFault c).ds = s.ds := rfl
@[simp] theorem State.takeFault_rs (c : FaultCause) : (s.takeFault c).rs = s.rs := rfl
@[simp] theorem State.takeFault_ip (c : FaultCause) : (s.takeFault c).ip = s.ip := rfl
@[simp] theorem State.takeFault_run (c : FaultCause) : (s.takeFault c).run = .faulted := rfl
@[simp] theorem State.takeFault_fault (c : FaultCause) : (s.takeFault c).fault = some ⟨c, s.ip⟩ := rfl
@[simp] theorem State.takeFault_bridge (c : FaultCause) : (s.takeFault c).bridge = s.bridge := rfl
@[simp] theorem State.takeFault_context (c : FaultCause) : (s.takeFault c).context = s.context := rfl
@[simp] theorem State.takeFault_events (c : FaultCause) : (s.takeFault c).events = s.events := rfl
@[simp] theorem State.takeFault_loaded (c : FaultCause) : (s.takeFault c).loaded = s.loaded := rfl

@[simp] theorem State.resetWith_cfg (c : Config) (b : Option BridgeHandle) (x : Context) :
    (State.resetWith c b x).cfg = c := rfl
@[simp] theorem State.resetWith_bridge (c : Config) (b : Option BridgeHandle) (x : Context) :
    (State.resetWith c b x).bridge = b := rfl
@[simp] theorem State.resetWith_context (c : Config) (b : Option BridgeHandle) (x : Context) :
    (State.resetWith c b x).context = x := rfl
@[simp] theorem State.resetWith_loaded (c : Config) (b : Option BridgeHandle) (x : Context) :
    (State.resetWith c b x).loaded = false := rfl

end Sys2Proof.Machine
end

