-- ==== Sys2Proof/Laws/Words.lean ====
section
/-! SUPPORT. Words as integers: the readings of R6 against each other, and the value functions in their mathematical form. -/

namespace Sys2Proof.Machine

@[simp] theorem wrap32_s32 (w : Word) : wrap32 (s32 w) = w := BitVec.ofInt_toInt

@[simp] theorem wrap32_natCast (n : Nat) : wrap32 (n : Int) = BitVec.ofNat 32 n := BitVec.ofInt_natCast 32 n

/-- `wrap32` in the words of R6. -/
theorem wrap32_toNat (z : Int) : ((wrap32 z).toNat : Int) = z % 2 ^ 32 := by
  simp only [wrap32, BitVec.toNat_ofInt]
  omega

theorem s32_lt (w : Word) : s32 w < 2 ^ 31 := by
  have := BitVec.toInt_lt (x := w); simp only [s32]; omega

theorem s32_ge (w : Word) : -(2 ^ 31) ≤ s32 w := by
  have := BitVec.le_toInt w; simp only [s32]; omega

/-- An integer in the signed range is read back from its word. -/
theorem s32_wrap32 {z : Int} (h1 : -(2 ^ 31) ≤ z) (h2 : z < 2 ^ 31) : s32 (wrap32 z) = z := by
  simp only [s32, wrap32, BitVec.toInt_ofInt]
  exact Int.bmod_eq_of_le (by omega) (by omega)

theorem s32_zext32 {n : Nat} (h : n < 2 ^ 31) : s32 (zext32 n) = n := by
  have := s32_wrap32 (z := (n : Int)) (by omega) (by omega)
  rwa [wrap32_natCast] at this

theorem s32_eq_zero {w : Word} : s32 w = 0 ↔ w = 0 :=
  ⟨fun h => by have := wrap32_s32 w; rw [h] at this; exact this.symm, fun h => by subst h; rfl⟩

theorem conditionHolds_iff {c : Word} : conditionHolds c = true ↔ c ≠ 0 := by
  simp [conditionHolds]

/-- `trem` is the remainder of truncated division (R13). -/
theorem trem_eq_tmod (x y : Int) : trem x y = Int.tmod x y := by
  have := Int.tmod_add_tdiv_mul x y
  simp only [trem, tdiv]
  omega

/-- `|trem(x, y)| < |y|` (R13). -/
theorem trem_abs_lt {x y : Int} (hy : y ≠ 0) : |trem x y| < |y| := by
  rw [trem_eq_tmod, Int.abs_eq_natAbs, Int.abs_eq_natAbs, Int.natAbs_tmod]
  exact_mod_cast Nat.mod_lt _ (by omega)

/-- `trem(x, y)` is zero or has the sign of `x` (R13). -/
theorem trem_sign {x y : Int} (h : trem x y ≠ 0) : trem x y < 0 ↔ x < 0 := by
  rw [trem_eq_tmod] at *
  rcases lt_or_ge x 0 with hx | hx
  · have := Int.tmod_nonneg (a := -x) y (by omega)
    rw [Int.neg_tmod] at this
    constructor <;> intro _ <;> omega
  · have := Int.tmod_nonneg y hx
    constructor <;> intro _ <;> omega

/-- A left shift is a multiplication, for every count (R193). -/
theorem shiftLeftValue_eq (a : Word) (n : Nat) : shiftLeftValue a n = wrap32 (s32 a * 2 ^ n) := by
  rw [shiftLeftValue]
  split
  · rename_i h
    obtain ⟨k, rfl⟩ := Nat.exists_eq_add_of_le h
    have hm : s32 a * 2 ^ (32 + k) = 2 ^ 32 * (s32 a * 2 ^ k) := by rw [pow_add]; ring
    apply BitVec.eq_of_toNat_eq
    have := wrap32_toNat (s32 a * 2 ^ (32 + k))
    rw [hm, Int.mul_emod_right] at this
    rw [hm]
    simpa using (by exact_mod_cast this : (wrap32 (2 ^ 32 * (s32 a * 2 ^ k))).toNat = 0).symm
  · rfl

/-- An arithmetic right shift is a division rounded toward minus infinity, for every count (R193). -/
theorem shiftRightValue_eq (a : Word) (n : Nat) : s32 (shiftRightValue a n) = s32 a / 2 ^ n := by
  have h1 := s32_lt a
  have h2 := s32_ge a
  have hp : (0 : Int) < 2 ^ n := by positivity
  rw [shiftRightValue]
  split
  · rename_i h
    have hbig : (2 : Int) ^ 32 ≤ 2 ^ n := pow_le_pow_right₀ (by norm_num) h
    split
    · rw [s32_wrap32 (by omega) (by omega)]
      exact (Int.ediv_eq_neg_one_of_neg_of_le (by omega) (by omega)).symm
    · rw [Int.ediv_eq_zero_of_lt (by omega) (by omega)]; rfl
  · rw [Int.fdiv_eq_ediv_of_nonneg _ hp.le]
    apply s32_wrap32
    · rw [Int.le_ediv_iff_mul_le hp]; nlinarith [Int.add_one_le_iff.mpr hp]
    · rw [Int.ediv_lt_iff_lt_mul hp]; nlinarith [Int.add_one_le_iff.mpr hp]

end Sys2Proof.Machine
end

