-- ==== Sys2Proof/Laws/Ops.lean ====
section
/-! SUPPORT. Each primitive of R9 to R11: when it succeeds and with what, when it raises and what. -/

namespace Sys2Proof.Machine

/-! ## The working copy (R11) -/

@[simp] theorem work_ok_bind {α β : Type} (a : α) (f : α → Work β) :
    (Except.ok a >>= f : Work β) = f a := rfl

@[simp] theorem work_error_bind {α β : Type} (c : FaultCause) (f : α → Work β) :
    (Except.error c >>= f : Work β) = .error c := rfl

@[simp] theorem work_pure {α : Type} (a : α) : (pure a : Work α) = .ok a := rfl

@[simp] theorem work_throw {α : Type} (c : FaultCause) : (throw c : Work α) = .error c := rfl

@[simp] theorem commit_ok (s t : State) : s.commit (.ok t) = .next t := rfl

@[simp] theorem commit_error (s : State) (c : FaultCause) :
    s.commit (.error c) = .next (s.takeFault c) := rfl

/-- A committed or abandoned instruction always has a next state. -/
theorem commit_next (s : State) (w : Work State) : ∃ t, s.commit w = .next t := by
  cases w <;> exact ⟨_, rfl⟩

/-- All that a commit can answer (R11, R226). -/
theorem commit_cases {s t : State} {w : Work State} (h : s.commit w = .next t) :
    w = .ok t ∨ ∃ c, w = .error c ∧ t = s.takeFault c := by
  cases w with
  | ok u => cases h; exact .inl rfl
  | error c => cases h; exact .inr ⟨c, rfl, rfl⟩

/-- A step of work that succeeds came through both its parts. -/
theorem work_bind_ok {α β : Type} {w : Work α} {f : α → Work β} {b : β} (h : w >>= f = .ok b) :
    ∃ a, w = .ok a ∧ f a = .ok b := by
  cases w with
  | ok a => exact ⟨a, rfl, h⟩
  | error c => cases h

/-! ## Stacks (R10) -/

@[simp] theorem stack_eta (st : Stack) : (⟨st.cells, st.count⟩ : Stack) = st := rfl

/-- After `j` pops, the cell `k` below the top is the one that was `k + j` below it. -/
@[simp] theorem peek_count_sub (cells : List Word) (n j k : Nat) :
    Stack.peek ⟨cells, n - j⟩ k = Stack.peek ⟨cells, n⟩ (k + j) := by
  simp only [Stack.peek]; congr 1; omega

theorem dsPop_of_pos {s : State} (h : 0 < s.ds.count) :
    s.dsPop = .ok (s.ds.peek 0, { s with ds := ⟨s.ds.cells, s.ds.count - 1⟩ }) :=
  if_neg (by omega)

theorem dsPop_of_empty {s : State} (h : s.ds.count = 0) :
    s.dsPop = .error (.stackUnderflow .data .pop) := if_pos h

theorem rsPop_of_pos {s : State} (h : 0 < s.rs.count) :
    s.rsPop = .ok (s.rs.peek 0, { s with rs := ⟨s.rs.cells, s.rs.count - 1⟩ }) :=
  if_neg (by omega)

theorem rsPop_of_empty {s : State} (h : s.rs.count = 0) :
    s.rsPop = .error (.stackUnderflow .ret .pop) := if_pos h

theorem dsPush_of_room {s : State} (h : s.ds.count ≠ s.cfg.dsCap) (v : Word) :
    s.dsPush v = .ok { s with ds := ⟨s.ds.cells.set s.ds.count v, s.ds.count + 1⟩ } := if_neg h

theorem dsPush_of_full {s : State} (h : s.ds.count = s.cfg.dsCap) (v : Word) :
    s.dsPush v = .error (.stackOverflow .data .push) := if_pos h

theorem rsPush_of_room {s : State} (h : s.rs.count ≠ s.cfg.rsCap) (v : Word) :
    s.rsPush v = .ok { s with rs := ⟨s.rs.cells.set s.rs.count v, s.rs.count + 1⟩ } := if_neg h

theorem rsPush_of_full {s : State} (h : s.rs.count = s.cfg.rsCap) (v : Word) :
    s.rsPush v = .error (.stackOverflow .ret .push) := if_pos h

/-- All that `DS.pop` can do when it succeeds. -/
theorem dsPop_ok {s t : State} {v : Word} (h : s.dsPop = .ok (v, t)) :
    0 < s.ds.count ∧ v = s.ds.peek 0 ∧ t = { s with ds := ⟨s.ds.cells, s.ds.count - 1⟩ } := by
  rcases Nat.eq_zero_or_pos s.ds.count with h0 | h0
  · rw [dsPop_of_empty h0] at h; cases h
  · rw [dsPop_of_pos h0] at h; cases h; exact ⟨h0, rfl, rfl⟩

/-- All that `RS.pop` can do when it succeeds. -/
theorem rsPop_ok {s t : State} {v : Word} (h : s.rsPop = .ok (v, t)) :
    0 < s.rs.count ∧ v = s.rs.peek 0 ∧ t = { s with rs := ⟨s.rs.cells, s.rs.count - 1⟩ } := by
  rcases Nat.eq_zero_or_pos s.rs.count with h0 | h0
  · rw [rsPop_of_empty h0] at h; cases h
  · rw [rsPop_of_pos h0] at h; cases h; exact ⟨h0, rfl, rfl⟩

/-- All that `DS.push` can do when it succeeds. -/
theorem dsPush_ok {s t : State} {v : Word} (h : s.dsPush v = .ok t) :
    s.ds.count ≠ s.cfg.dsCap ∧ t = { s with ds := ⟨s.ds.cells.set s.ds.count v, s.ds.count + 1⟩ } := by
  by_cases h0 : s.ds.count = s.cfg.dsCap
  · rw [dsPush_of_full h0] at h; cases h
  · rw [dsPush_of_room h0] at h; cases h; exact ⟨h0, rfl⟩

/-- All that `RS.push` can do when it succeeds. -/
theorem rsPush_ok {s t : State} {v : Word} (h : s.rsPush v = .ok t) :
    s.rs.count ≠ s.cfg.rsCap ∧ t = { s with rs := ⟨s.rs.cells.set s.rs.count v, s.rs.count + 1⟩ } := by
  by_cases h0 : s.rs.count = s.cfg.rsCap
  · rw [rsPush_of_full h0] at h; cases h
  · rw [rsPush_of_room h0] at h; cases h; exact ⟨h0, rfl⟩

/-- Putting back the word a cell holds changes nothing. -/
theorem set_getD_self {l : List Word} {n : Nat} {v : Word} (h : l.getD n 0 = v) : l.set n v = l := by
  subst h
  apply List.ext_getElem?
  intro i
  by_cases hi : n < l.length
  · rw [List.getElem?_set]
    split
    · rename_i h; subst h; simp [List.getD_eq_getElem?_getD, hi]
    · rfl
  · rw [List.set_eq_of_length_le (by omega)]

/-- The word just put at the top is the top (R22). -/
theorem peek_set {cells : List Word} {n : Nat} (h : n < cells.length) (v : Word) :
    Stack.peek ⟨cells.set n v, n + 1⟩ 0 = v := by
  simp [Stack.peek, List.getD_eq_getElem?_getD, h]

/-! ## Addresses (R9) -/

theorem checkAddr_of_ok {s : State} {x : Int} (h : s.addrOk x) (k : Access) :
    s.checkAddr x k = .ok x.toNat := if_pos h

theorem checkAddr_of_bad {s : State} {x : Int} (h : ¬s.addrOk x) (k : Access) :
    s.checkAddr x k = .error (.memoryOutOfRange k (wrap32 x)) := if_neg h

/-- All that `CheckAddr` can do when it succeeds. -/
theorem checkAddr_ok {s : State} {x : Int} {k : Access} {a : Nat} (h : s.checkAddr x k = .ok a) :
    s.addrOk x ∧ a = x.toNat ∧ a < s.cfg.memWords := by
  by_cases h0 : s.addrOk x
  · rw [checkAddr_of_ok h0] at h; cases h
    exact ⟨h0, rfl, by have := h0.1; have := h0.2; omega⟩
  · rw [checkAddr_of_bad h0] at h; cases h

/-! ## Shared operand forms -/

/-- `( a b -- f a b )` with two operands. -/
theorem binary_of_two {s : State} (h : 2 ≤ s.ds.count) (hcap : s.ds.count ≤ s.cfg.dsCap)
    (f : Word → Word → Word) :
    s.binary f = .ok { s with
      ds := ⟨s.ds.cells.set (s.ds.count - 2) (f s.nos s.tos), s.ds.count - 1⟩, ip := s.ip + 1 } := by
  have h1 : s.ds.count - 1 - 1 = s.ds.count - 2 := by omega
  have h2 : s.ds.count - 2 + 1 = s.ds.count - 1 := by omega
  simp (disch := first | omega | (dsimp only; omega)) only [State.binary, dsPop_of_pos, dsPush_of_room, work_ok_bind,
    work_pure, State.advance, State.setIp, peek_count_sub, State.tos, State.nos, h1, h2]

/-- `( a b -- f a b )` with fewer. -/
theorem binary_of_few {s : State} (h : s.ds.count < 2) (f : Word → Word → Word) :
    s.binary f = .error (.stackUnderflow .data .pop) := by
  rcases Nat.eq_zero_or_pos s.ds.count with h0 | h0
  · rw [State.binary, dsPop_of_empty h0]; rfl
  · simp (disch := first | omega | (dsimp only; omega)) only [State.binary, dsPop_of_pos, dsPop_of_empty, work_ok_bind,
      work_error_bind]

theorem jumpTo_of_ok {s : State} {t : Word} (h : s.addrOk (s32 t)) :
    s.jumpTo t = .ok { s with ip := (s32 t).toNat } := by
  rw [State.jumpTo, checkAddr_of_ok h]; rfl

theorem jumpTo_of_bad {s : State} {t : Word} (h : ¬s.addrOk (s32 t)) :
    s.jumpTo t = .error (.memoryOutOfRange .target t) := by
  rw [State.jumpTo, checkAddr_of_bad h, wrap32_s32]; rfl

theorem callTo_of_ok {s : State} {t : Word} (h : s.addrOk (s32 t)) (hr : s.rs.count ≠ s.cfg.rsCap) :
    s.callTo t = .ok { s with
      rs := ⟨s.rs.cells.set s.rs.count (zext32 (s.ip + 1)), s.rs.count + 1⟩, ip := (s32 t).toNat } := by
  rw [State.callTo, checkAddr_of_ok h, work_ok_bind, rsPush_of_room hr]; rfl

theorem callTo_of_bad {s : State} {t : Word} (h : ¬s.addrOk (s32 t)) :
    s.callTo t = .error (.memoryOutOfRange .target t) := by
  rw [State.callTo, checkAddr_of_bad h, wrap32_s32]; rfl

theorem callTo_of_full {s : State} {t : Word} (h : s.addrOk (s32 t)) (hr : s.rs.count = s.cfg.rsCap) :
    s.callTo t = .error (.stackOverflow .ret .push) := by
  rw [State.callTo, checkAddr_of_ok h, work_ok_bind, rsPush_of_full hr]; rfl

/-! ## Instruction fetch (R86) -/

/-- Where the words at `ip` decode, that is what is fetched. -/
theorem fetchInstr_of_decode {s : State} {i : Instr} {rest : List Word} (hip : s.ip < s.cfg.memWords)
    (h : decode s.cfg.opcodeMap (s.wordsAt s.ip) = .ok (i, rest)) : s.fetchInstr = .ok i := by
  rw [State.fetchInstr, checkAddr_of_ok ⟨by omega, by omega⟩]
  show s.decodeAt (Int.toNat s.ip) = _
  rw [Int.toNat_natCast, State.decodeAt, h]

/-- A fetched instruction lies in memory. -/
theorem fetchInstr_ok {s : State} {i : Instr} (h : s.fetchInstr = .ok i) : s.ip < s.cfg.memWords := by
  obtain ⟨a, ha, -⟩ := work_bind_ok h
  have := (checkAddr_ok ha).1.2
  omega

end Sys2Proof.Machine
end

