-- ==== Sys2Proof/Laws/Exec.lean ====
section
/-! SUPPORT. What a piece of work can answer (`Sat`), and one inversion lemma for all instructions: `exec_inv`. -/

namespace Sys2Proof.Machine

/-- A piece of work answers a value with `P` or raises a fault with `E`. -/
def Sat {α : Type} (w : Work α) (P : α → Prop) (E : FaultCause → Prop) : Prop :=
  match w with
  | .ok a => P a
  | .error c => E c

theorem Sat.bind {α β : Type} {w : Work α} {f : α → Work β} {P : α → Prop} {Q : β → Prop}
    {E : FaultCause → Prop} (hw : Sat w P E) (hf : ∀ a, P a → Sat (f a) Q E) : Sat (w >>= f) Q E := by
  cases w with
  | ok a => exact hf a hw
  | error c => exact hw

theorem Sat.mono {α : Type} {w : Work α} {P Q : α → Prop} {E : FaultCause → Prop} (hw : Sat w P E)
    (h : ∀ a, P a → Q a) : Sat w Q E := by
  cases w with
  | ok a => exact h a hw
  | error c => exact hw

/-- The faults an instruction's own rule can raise: all but DecodeFault (R221). -/
def OwnFault (c : FaultCause) : Prop := ∀ v, c ≠ .decodeFault v

theorem dsPop_sat (s : State) : Sat s.dsPop
    (fun p => 0 < s.ds.count ∧ p = (s.ds.peek 0, { s with ds := ⟨s.ds.cells, s.ds.count - 1⟩ })) OwnFault := by
  rcases Nat.eq_zero_or_pos s.ds.count with h | h
  · rw [dsPop_of_empty h]; exact fun _ => by simp
  · rw [dsPop_of_pos h]; exact ⟨h, rfl⟩

theorem rsPop_sat (s : State) : Sat s.rsPop
    (fun p => 0 < s.rs.count ∧ p = (s.rs.peek 0, { s with rs := ⟨s.rs.cells, s.rs.count - 1⟩ })) OwnFault := by
  rcases Nat.eq_zero_or_pos s.rs.count with h | h
  · rw [rsPop_of_empty h]; exact fun _ => by simp
  · rw [rsPop_of_pos h]; exact ⟨h, rfl⟩

theorem dsPush_sat (s : State) (v : Word) : Sat (s.dsPush v)
    (fun t => s.ds.count ≠ s.cfg.dsCap ∧
      t = { s with ds := ⟨s.ds.cells.set s.ds.count v, s.ds.count + 1⟩ }) OwnFault := by
  by_cases h : s.ds.count = s.cfg.dsCap
  · rw [dsPush_of_full h]; exact fun _ => by simp
  · rw [dsPush_of_room h]; exact ⟨h, rfl⟩

theorem rsPush_sat (s : State) (v : Word) : Sat (s.rsPush v)
    (fun t => s.rs.count ≠ s.cfg.rsCap ∧
      t = { s with rs := ⟨s.rs.cells.set s.rs.count v, s.rs.count + 1⟩ }) OwnFault := by
  by_cases h : s.rs.count = s.cfg.rsCap
  · rw [rsPush_of_full h]; exact fun _ => by simp
  · rw [rsPush_of_room h]; exact ⟨h, rfl⟩

theorem checkAddr_sat (s : State) (x : Int) (k : Access) : Sat (s.checkAddr x k)
    (fun a => s.addrOk x ∧ a = x.toNat ∧ a < s.cfg.memWords) OwnFault := by
  by_cases h : s.addrOk x
  · rw [checkAddr_of_ok h]
    exact ⟨h, rfl, by have := h.1; have := h.2; omega⟩
  · rw [checkAddr_of_bad h]; exact fun _ => by simp

/-- What the working copy of an instruction may differ in from the state it began with, before the instruction's
last action: the two stacks, within their arrays. -/
structure WorkOf (s t : State) : Prop where
  rest : t = { s with ds := t.ds, rs := t.rs }
  dsCells : t.ds.cells.length = s.ds.cells.length
  rsCells : t.rs.cells.length = s.rs.cells.length
  dsCount : s.ds.count ≤ s.cfg.dsCap → t.ds.count ≤ s.cfg.dsCap
  rsCount : s.rs.count ≤ s.cfg.rsCap → t.rs.count ≤ s.cfg.rsCap

theorem WorkOf.refl (s : State) : WorkOf s s := ⟨rfl, rfl, rfl, id, id⟩

theorem WorkOf.cfg {s t : State} (h : WorkOf s t) : t.cfg = s.cfg := by rw [h.rest]

theorem WorkOf.ip {s t : State} (h : WorkOf s t) : t.ip = s.ip := by rw [h.rest]

theorem WorkOf.dsPop {s t : State} (h : WorkOf s t) : Sat t.dsPop (fun p => WorkOf s p.2) OwnFault := by
  refine (dsPop_sat t).mono ?_
  rintro _ ⟨-, rfl⟩
  exact ⟨by rw [h.rest], h.dsCells, h.rsCells,
    fun hs => Nat.le_trans (Nat.sub_le _ _) (h.dsCount hs), h.rsCount⟩

theorem WorkOf.rsPop {s t : State} (h : WorkOf s t) : Sat t.rsPop (fun p => WorkOf s p.2) OwnFault := by
  refine (rsPop_sat t).mono ?_
  rintro _ ⟨-, rfl⟩
  exact ⟨by rw [h.rest], h.dsCells, h.rsCells, h.dsCount,
    fun hs => Nat.le_trans (Nat.sub_le _ _) (h.rsCount hs)⟩

theorem WorkOf.dsPush {s t : State} (h : WorkOf s t) (v : Word) :
    Sat (t.dsPush v) (WorkOf s) OwnFault := by
  refine (dsPush_sat t v).mono ?_
  rintro _ ⟨hn, rfl⟩
  rw [h.cfg] at hn
  exact ⟨by rw [h.rest], by simp [h.dsCells], h.rsCells,
    fun hs => by have := h.dsCount hs; show t.ds.count + 1 ≤ _; omega, h.rsCount⟩

theorem WorkOf.rsPush {s t : State} (h : WorkOf s t) (v : Word) :
    Sat (t.rsPush v) (WorkOf s) OwnFault := by
  refine (rsPush_sat t v).mono ?_
  rintro _ ⟨hn, rfl⟩
  rw [h.cfg] at hn
  exact ⟨by rw [h.rest], h.dsCells, by simp [h.rsCells], h.dsCount,
    fun hs => by have := h.rsCount hs; show t.rs.count + 1 ≤ _; omega⟩

theorem WorkOf.checkAddr {s t : State} (h : WorkOf s t) (x : Int) (k : Access) :
    Sat (t.checkAddr x k) (fun a => a < s.cfg.memWords) OwnFault :=
  (checkAddr_sat t x k).mono fun _ ha => h.cfg ▸ ha.2.2

/-- The instructions that send an event. -/
def Emits : Instr → Bool
  | .syscall0 | .syscall1 | .syscall2 | .syscall3 | .syscall4 => true
  | _ => false

/-- The instructions that set `ip` otherwise than to `ip + 1` (R88). -/
def SetsIp : Instr → Bool
  | .stop | .lit _ | .jmp | .cjmp | .call | .ccall | .ret => true
  | _ => false

/-- All that an instruction can do when it commits. -/
structure Committed (i : Instr) (s t : State) : Prop where
  cfg : t.cfg = s.cfg
  bridge : t.bridge = s.bridge
  context : t.context = s.context
  loaded : t.loaded = s.loaded
  fault : t.fault = s.fault
  run : t.run = if i = .stop then .halted else s.run
  mem : t.mem = s.mem ∨ (i = .store ∧ ∃ a v, a < s.cfg.memWords ∧ t.mem = s.mem.write a v)
  events : t.events = s.events ∨ (Emits i = true ∧ ∃ e : Event, e.context = s.context ∧ t.events = s.events ++ [e])
  dsCells : t.ds.cells.length = s.ds.cells.length
  rsCells : t.rs.cells.length = s.rs.cells.length
  dsCount : s.ds.count ≤ s.cfg.dsCap → t.ds.count ≤ s.cfg.dsCap
  rsCount : s.rs.count ≤ s.cfg.rsCap → t.rs.count ≤ s.cfg.rsCap
  ipBound : s.ip < s.cfg.memWords → t.ip ≤ s.cfg.memWords
  ipNext : SetsIp i = false → t.ip = s.ip + 1
  ipStop : i = .stop → t.ip = s.ip
  ipLit : ∀ imm, i = .lit imm → t.ip = s.ip + 2

/-- The commit that only sets `ip`. -/
theorem WorkOf.setIp {i : Instr} {s t : State} (h : WorkOf s t) (hi : i ≠ .stop) {a : Nat}
    (hb : s.ip < s.cfg.memWords → a ≤ s.cfg.memWords) (hn : SetsIp i = false → a = s.ip + 1)
    (hl : ∀ imm, i = .lit imm → a = s.ip + 2) : Committed i s (t.setIp a) := by
  have hr := h.rest
  refine ⟨?_, ?_, ?_, ?_, ?_, ?_, .inl ?_, .inl ?_, h.dsCells, h.rsCells, h.dsCount, h.rsCount,
    hb, hn, fun h => absurd h hi, hl⟩
  all_goals rw [hr]
  · rfl
  · rfl
  · rfl
  · rfl
  · rfl
  · rw [if_neg hi]; rfl
  · rfl
  · rfl

theorem WorkOf.advance {i : Instr} {s t : State} (h : WorkOf s t) (hi : i ≠ .stop)
    (hl : ∀ imm, i ≠ .lit imm) : Committed i s t.advance := by
  refine h.setIp hi ?_ ?_ ?_ <;> rw [h.ip]
  · exact fun h => h
  · exact fun _ => rfl
  · exact fun imm h => absurd h (hl imm)

theorem WorkOf.emit {i : Instr} {s t : State} (h : WorkOf s t) (hi : i ≠ .stop)
    (hl : ∀ imm, i ≠ .lit imm) (he : Emits i = true) (n a b c d : Word) :
    Committed i s (t.advance.emit n a b c d) := by
  have ha := h.advance hi hl
  exact { ha with
    events := .inr ⟨he, ⟨n, a, b, c, d, t.context⟩, ha.context,
      by simp only [State.emit_events, State.advance_context, State.advance_events]; rw [h.rest]⟩ }

theorem binary_sat {i : Instr} (hi : i ≠ .stop) (hl : ∀ imm, i ≠ .lit imm) (f : Word → Word → Word)
    (s : State) : Sat (s.binary f) (Committed i s) OwnFault :=
  (WorkOf.refl s).dsPop.bind fun _ h => h.dsPop.bind fun _ h => (h.dsPush _).bind fun _ h => h.advance hi hl

theorem jumpTo_sat {i : Instr} (hi : i ≠ .stop) (hl : ∀ imm, i ≠ .lit imm) (hj : SetsIp i = true)
    {s t : State} (h : WorkOf s t) (x : Word) : Sat (t.jumpTo x) (Committed i s) OwnFault :=
  (h.checkAddr _ _).bind fun _ ha => h.setIp hi (fun _ => Nat.le_of_lt ha)
    (fun hn => by rw [hj] at hn; cases hn) fun imm he => absurd he (hl imm)

theorem callTo_sat {i : Instr} (hi : i ≠ .stop) (hl : ∀ imm, i ≠ .lit imm) (hj : SetsIp i = true)
    {s t : State} (h : WorkOf s t) (x : Word) : Sat (t.callTo x) (Committed i s) OwnFault :=
  (h.checkAddr _ _).bind fun _ ha => (h.rsPush _).bind fun _ h => h.setIp hi (fun _ => Nat.le_of_lt ha)
    (fun hn => by rw [hj] at hn; cases hn) fun imm he => absurd he (hl imm)

theorem conditional_sat {i : Instr} (hi : i ≠ .stop) (hl : ∀ imm, i ≠ .lit imm)
    {taken : Word → State → Work State} {s : State}
    (h : ∀ x t, WorkOf s t → Sat (taken x t) (Committed i s) OwnFault) :
    Sat (s.conditional taken) (Committed i s) OwnFault := by
  refine (WorkOf.refl s).dsPop.bind fun p hp => hp.dsPop.bind fun q hq => ?_
  show Sat (if conditionHolds q.1 then taken p.1 q.2 else pure q.2.advance) _ _
  split
  · exact h _ _ hq
  · exact hq.advance hi hl

/-- The work of an instruction, which `exec` commits. -/
theorem exec_eq_commit (i : Instr) (s : State) : ∃ w, exec i s = s.commit w ∧
    Sat w (Committed i s) OwnFault := by
  have r := WorkOf.refl s
  cases i
  case nop => exact ⟨.ok s.advance, rfl, r.advance (by simp) (by simp)⟩
  case stop =>
    refine ⟨.ok { s with run := .halted }, rfl, ?_⟩
    exact ⟨rfl, rfl, rfl, rfl, rfl, rfl, .inl rfl, .inl rfl, rfl, rfl, id, id, Nat.le_of_lt,
      fun h => absurd h (by decide), fun _ => rfl, fun _ h => absurd h (by simp)⟩
  case lit imm =>
    refine ⟨_, rfl, (checkAddr_sat s _ _).bind fun a ha => (r.dsPush _).bind fun u h =>
      h.setIp (by simp) ?_ (fun h => by cases h) ?_⟩ <;> rw [h.ip]
    · intro _; have := ha.1.2; omega
    · exact fun _ _ => rfl
  case dup =>
    exact ⟨_, rfl, r.dsPop.bind fun _ h => (h.dsPush _).bind fun _ h => (h.dsPush _).bind fun _ h =>
      h.advance (by simp) (by simp)⟩
  case drop => exact ⟨_, rfl, r.dsPop.bind fun _ h => h.advance (by simp) (by simp)⟩
  case swap =>
    exact ⟨_, rfl, r.dsPop.bind fun _ h => h.dsPop.bind fun _ h => (h.dsPush _).bind fun _ h =>
      (h.dsPush _).bind fun _ h => h.advance (by simp) (by simp)⟩
  case push =>
    exact ⟨_, rfl, r.dsPop.bind fun _ h => (h.rsPush _).bind fun _ h => h.advance (by simp) (by simp)⟩
  case pop =>
    exact ⟨_, rfl, r.rsPop.bind fun _ h => (h.dsPush _).bind fun _ h => h.advance (by simp) (by simp)⟩
  case jmp => exact ⟨_, rfl, r.dsPop.bind fun _ h => jumpTo_sat (by simp) (by simp) rfl h _⟩
  case cjmp =>
    exact ⟨_, rfl, conditional_sat (by simp) (by simp) fun x _ h => jumpTo_sat (by simp) (by simp) rfl h x⟩
  case call => exact ⟨_, rfl, r.dsPop.bind fun _ h => callTo_sat (by simp) (by simp) rfl h _⟩
  case ccall =>
    exact ⟨_, rfl, conditional_sat (by simp) (by simp) fun x _ h => callTo_sat (by simp) (by simp) rfl h x⟩
  case ret => exact ⟨_, rfl, r.rsPop.bind fun _ h => jumpTo_sat (by simp) (by simp) rfl h _⟩
  case fetch =>
    exact ⟨_, rfl, r.dsPop.bind fun _ h => (h.checkAddr _ _).bind fun _ _ => (h.dsPush _).bind fun _ h =>
      h.advance (by simp) (by simp)⟩
  case store =>
    refine ⟨_, rfl, r.dsPop.bind fun _ _ => ?_⟩
    rename_i h
    refine h.dsPop.bind fun p h => (h.checkAddr _ _).bind fun a ha => ?_
    have hc : Committed .store s p.2.advance := h.advance (by simp) (by simp)
    exact { hc with mem := .inr ⟨rfl, a, p.1, ha, by
      simp only [State.advance_mem, State.memWrite_mem]; rw [h.rest]⟩ }
  case divmod =>
    refine ⟨_, rfl, r.dsPop.bind fun p h => h.dsPop.bind fun q h => ?_⟩
    show Sat (if s32 p.1 = 0 then _ else _) _ _
    split
    · exact fun _ => by simp
    · exact (h.dsPush _).bind fun _ h => (h.dsPush _).bind fun _ h => h.advance (by simp) (by simp)
  case syscall0 => exact ⟨_, rfl, r.dsPop.bind fun _ h => h.emit (by simp) (by simp) rfl _ _ _ _ _⟩
  case syscall1 =>
    exact ⟨_, rfl, r.dsPop.bind fun _ h => h.dsPop.bind fun _ h => h.emit (by simp) (by simp) rfl _ _ _ _ _⟩
  case syscall2 =>
    exact ⟨_, rfl, r.dsPop.bind fun _ h => h.dsPop.bind fun _ h => h.dsPop.bind fun _ h =>
      h.emit (by simp) (by simp) rfl _ _ _ _ _⟩
  case syscall3 =>
    exact ⟨_, rfl, r.dsPop.bind fun _ h => h.dsPop.bind fun _ h => h.dsPop.bind fun _ h =>
      h.dsPop.bind fun _ h => h.emit (by simp) (by simp) rfl _ _ _ _ _⟩
  case syscall4 =>
    exact ⟨_, rfl, r.dsPop.bind fun _ h => h.dsPop.bind fun _ h => h.dsPop.bind fun _ h =>
      h.dsPop.bind fun _ h => h.dsPop.bind fun _ h => h.emit (by simp) (by simp) rfl _ _ _ _ _⟩
  all_goals exact ⟨_, rfl, binary_sat (by simp) (by simp) _ s⟩

/-- One inversion lemma for every instruction: it commits, or takes a fault of its own. -/
theorem exec_inv {i : Instr} {s t : State} (h : exec i s = .next t) :
    Committed i s t ∨ ∃ c, OwnFault c ∧ t = s.takeFault c := by
  obtain ⟨w, hw, hs⟩ := exec_eq_commit i s
  rw [hw] at h
  rcases commit_cases h with rfl | ⟨c, rfl, rfl⟩
  · exact .inl hs
  · exact .inr ⟨c, hs, rfl⟩

end Sys2Proof.Machine
end

