-- ==== Sys2Proof/Laws/HostPort.lean ====
section
/-! SUPPORT. All that each host transaction can answer, one lemma per transaction. -/

namespace Sys2Proof.Machine

/-- All that a load can do when it succeeds (R262). -/
theorem load_inv {s t : State} {image : List Word} (h : s.load image = .next t) :
    s = State.resetWith s.cfg s.bridge s.context ∧ image.length ≤ s.cfg.memWords ∧
      t = { s with mem := s.mem.writeWords 0 image, loaded := true } := by
  unfold State.load at h
  split at h
  · split at h
    · cases h; exact ⟨‹_›, ‹_›, rfl⟩
    · cases h
  · cases h

/-- Once a load has been issued, load is no move (R65). -/
theorem load_of_loaded {s : State} (h : s.loaded = true) (image : List Word) :
    s.load image = .fault .loadOutsideReset :=
  if_neg fun hs => by rw [hs] at h; cases h

/-- Off address 0, or stopped, the state is no reset state and load is no move (R262). -/
theorem load_of_started {s : State} (h : s.ip ≠ 0 ∨ s.run ≠ .running) (image : List Word) :
    s.load image = .fault .loadOutsideReset :=
  if_neg fun hs => by rw [hs] at h; exact h.elim (absurd rfl) (absurd rfl)

/-- All that a host move can do when it goes through (R267). -/
theorem transact_inv {s t : State} {m : Transaction} (h : s.transact m = .next t) :
    (∃ b x, m = .reset b x ∧ t = State.resetWith s.cfg b x) ∨
    (∃ image, m = .load image ∧ s.load image = .next t) ∨
    (m = .step ∧ step s = .next t) ∨ (m = .inspect ∧ t = s) := by
  cases m with
  | reset b x => cases h; exact .inl ⟨b, x, rfl, rfl⟩
  | load image => exact .inr (.inl ⟨image, rfl, h⟩)
  | step => exact .inr (.inr (.inl ⟨rfl, h⟩))
  | inspect => cases h; exact .inr (.inr (.inr ⟨rfl, rfl⟩))

end Sys2Proof.Machine
end

