-- ==== Sys2Proof/Laws/PerInstr.lean ====
section
/-! SUPPORT. Statements made for every instruction, one lemma per constructor. -/

namespace Sys2Proof.Laws.EncodeLength

/-- An instruction's encoding has as many words as its length says, and the first is its opcode word (R81, R87). -/
def Statement (i : Instr) : Prop :=
  ∀ map : List Op, (encode map i).length = i.length ∧ (encode map i).head? = some (wordOfOp map i.op)

theorem nop : Statement .nop := fun _ => ⟨rfl, rfl⟩
theorem stop : Statement .stop := fun _ => ⟨rfl, rfl⟩
theorem lit (imm : Word) : Statement (.lit imm) := fun _ => ⟨rfl, rfl⟩
theorem dup : Statement .dup := fun _ => ⟨rfl, rfl⟩
theorem drop : Statement .drop := fun _ => ⟨rfl, rfl⟩
theorem swap : Statement .swap := fun _ => ⟨rfl, rfl⟩
theorem push : Statement .push := fun _ => ⟨rfl, rfl⟩
theorem pop : Statement .pop := fun _ => ⟨rfl, rfl⟩
theorem jmp : Statement .jmp := fun _ => ⟨rfl, rfl⟩
theorem cjmp : Statement .cjmp := fun _ => ⟨rfl, rfl⟩
theorem call : Statement .call := fun _ => ⟨rfl, rfl⟩
theorem ccall : Statement .ccall := fun _ => ⟨rfl, rfl⟩
theorem ret : Statement .ret := fun _ => ⟨rfl, rfl⟩
theorem fetch : Statement .fetch := fun _ => ⟨rfl, rfl⟩
theorem store : Statement .store := fun _ => ⟨rfl, rfl⟩
theorem add : Statement .add := fun _ => ⟨rfl, rfl⟩
theorem sub : Statement .sub := fun _ => ⟨rfl, rfl⟩
theorem mul : Statement .mul := fun _ => ⟨rfl, rfl⟩
theorem divmod : Statement .divmod := fun _ => ⟨rfl, rfl⟩
theorem eq : Statement .eq := fun _ => ⟨rfl, rfl⟩
theorem ne : Statement .ne := fun _ => ⟨rfl, rfl⟩
theorem lt : Statement .lt := fun _ => ⟨rfl, rfl⟩
theorem gt : Statement .gt := fun _ => ⟨rfl, rfl⟩
theorem and : Statement .and := fun _ => ⟨rfl, rfl⟩
theorem or : Statement .or := fun _ => ⟨rfl, rfl⟩
theorem xor : Statement .xor := fun _ => ⟨rfl, rfl⟩
theorem shift : Statement .shift := fun _ => ⟨rfl, rfl⟩
theorem syscall0 : Statement .syscall0 := fun _ => ⟨rfl, rfl⟩
theorem syscall1 : Statement .syscall1 := fun _ => ⟨rfl, rfl⟩
theorem syscall2 : Statement .syscall2 := fun _ => ⟨rfl, rfl⟩
theorem syscall3 : Statement .syscall3 := fun _ => ⟨rfl, rfl⟩
theorem syscall4 : Statement .syscall4 := fun _ => ⟨rfl, rfl⟩

end Sys2Proof.Laws.EncodeLength
end

