-- ==== Sys2Proof/Laws/Relation.lean ====
section
/-! SUPPORT. Two runs side by side: a relation that every primitive keeps, every instruction and every step keeps. -/

namespace Sys2Proof.Machine

/-- Two pieces of work answer related values or raise the same fault. -/
def WorkRel {α β : Type} (R : α → β → Prop) (w : Work α) (v : Work β) : Prop :=
  match w, v with
  | .ok a, .ok b => R a b
  | .error c, .error d => c = d
  | .ok _, .error _ => False
  | .error _, .ok _ => False

theorem WorkRel.bind {α β γ δ : Type} {R : α → β → Prop} {S : γ → δ → Prop} {w : Work α} {v : Work β}
    {f : α → Work γ} {g : β → Work δ} (h : WorkRel R w v) (hf : ∀ a b, R a b → WorkRel S (f a) (g b)) :
    WorkRel S (w >>= f) (v >>= g) := by
  cases w <;> cases v
  · exact h
  · exact h.elim
  · exact h.elim
  · exact hf _ _ h

/-- Popped words agree and the states after the pop are related. -/
abbrev PopRel (R : State → State → Prop) (p q : Word × State) : Prop := p.1 = q.1 ∧ R p.2 q.2

/-- After related pops, the same word is at hand and the states are related. -/
theorem WorkRel.bindPop {R : State → State → Prop} {γ δ : Type} {S : γ → δ → Prop} {w v : Work (Word × State)}
    {f : Word × State → Work γ} {g : Word × State → Work δ} (h : WorkRel (PopRel R) w v)
    (hf : ∀ x s t, R s t → WorkRel S (f (x, s)) (g (x, t))) : WorkRel S (w >>= f) (v >>= g) :=
  h.bind fun p q hp => by
    obtain ⟨x, s⟩ := p
    obtain ⟨y, t⟩ := q
    obtain ⟨rfl, hr⟩ := hp
    exact hf x s t hr

/-- A relation on states that the primitives keep, memory apart. -/
structure KeptByPrimitives (R : State → State → Prop) : Prop where
  cfg : ∀ {s t}, R s t → t.cfg = s.cfg
  ip : ∀ {s t}, R s t → t.ip = s.ip
  dsPop : ∀ {s t}, R s t → WorkRel (PopRel R) s.dsPop t.dsPop
  rsPop : ∀ {s t}, R s t → WorkRel (PopRel R) s.rsPop t.rsPop
  dsPush : ∀ {s t}, R s t → ∀ v, WorkRel R (s.dsPush v) (t.dsPush v)
  rsPush : ∀ {s t}, R s t → ∀ v, WorkRel R (s.rsPush v) (t.rsPush v)
  setIp : ∀ {s t}, R s t → ∀ a, R (s.setIp a) (t.setIp a)
  emit : ∀ {s t}, R s t → ∀ n a b c d, R (s.emit n a b c d) (t.emit n a b c d)
  halt : ∀ {s t}, R s t → R { s with run := .halted } { t with run := .halted }
  takeFault : ∀ {s t}, R s t → ∀ c, R (s.takeFault c) (t.takeFault c)

/-- A relation that memory accesses keep as well. -/
structure KeptByMemory (R : State → State → Prop) : Prop where
  memRead : ∀ {s t}, R s t → ∀ a, t.memRead a = s.memRead a
  memWrite : ∀ {s t}, R s t → ∀ a v, R (s.memWrite a v) (t.memWrite a v)

variable {R : State → State → Prop}

theorem KeptByPrimitives.checkAddr (k : KeptByPrimitives R) {s t : State} (h : R s t) (x : Int) (a : Access) :
    WorkRel Eq (s.checkAddr x a) (t.checkAddr x a) := by
  simp only [State.checkAddr, State.addrOk, k.cfg h]
  split <;> exact rfl

theorem KeptByPrimitives.advance (k : KeptByPrimitives R) {s t : State} (h : R s t) :
    R s.advance t.advance := by
  rw [State.advance, State.advance, k.ip h]
  exact k.setIp h _

theorem KeptByPrimitives.binary (k : KeptByPrimitives R) {s t : State} (h : R s t)
    (f : Word → Word → Word) : WorkRel R (s.binary f) (t.binary f) :=
  (k.dsPop h).bindPop fun _ _ _ h => (k.dsPop h).bindPop fun _ _ _ h =>
    (k.dsPush h _).bind fun _ _ h => k.advance h

theorem KeptByPrimitives.jumpTo (k : KeptByPrimitives R) {s t : State} (h : R s t) (x : Word) :
    WorkRel R (s.jumpTo x) (t.jumpTo x) :=
  (k.checkAddr h _ _).bind fun _ _ ha => ha ▸ k.setIp h _

theorem KeptByPrimitives.callTo (k : KeptByPrimitives R) {s t : State} (h : R s t) (x : Word) :
    WorkRel R (s.callTo x) (t.callTo x) := by
  refine (k.checkAddr h _ _).bind fun a b ha => ?_
  subst ha
  rw [k.ip h]
  exact (k.rsPush h _).bind fun _ _ h => k.setIp h _

theorem KeptByPrimitives.conditional (k : KeptByPrimitives R) {s t : State} (h : R s t)
    {taken : Word → State → Work State} (ht : ∀ x u v, R u v → WorkRel R (taken x u) (taken x v)) :
    WorkRel R (s.conditional taken) (t.conditional taken) := by
  refine (k.dsPop h).bindPop fun x _ _ h => (k.dsPop h).bindPop fun c u v h => ?_
  show WorkRel R (if conditionHolds c then taken x u else pure u.advance)
    (if conditionHolds c then taken x v else pure v.advance)
  split
  · exact ht _ _ _ h
  · exact k.advance h

/-- Both outcomes are next states, and related. -/
def NextRel (R : State → State → Prop) (o p : Host.Outcome State Fault Refusal) : Prop :=
  ∃ s t, o = .next s ∧ p = .next t ∧ R s t

theorem KeptByPrimitives.commit (k : KeptByPrimitives R) {s t : State} (h : R s t) {w v : Work State}
    (hw : WorkRel R w v) : NextRel R (s.commit w) (t.commit v) := by
  cases w <;> cases v
  · cases hw; exact ⟨_, _, rfl, rfl, k.takeFault h _⟩
  · exact hw.elim
  · exact hw.elim
  · exact ⟨_, _, rfl, rfl, hw⟩

/-- Every instruction keeps a relation that the primitives keep; `fetch` and `store` where memory keeps it too. -/
theorem KeptByPrimitives.exec (k : KeptByPrimitives R) {i : Instr}
    (m : i = .fetch ∨ i = .store → KeptByMemory R) {s t : State} (h : R s t) :
    NextRel R (exec i s) (exec i t) := by
  cases i
  case nop => exact k.commit h (w := .ok _) (v := .ok _) (k.advance h)
  case stop => exact k.commit h (w := .ok _) (v := .ok _) (k.halt h)
  case lit imm =>
    refine k.commit h ?_
    rw [k.ip h]
    exact (k.checkAddr h _ _).bind fun _ _ _ => (k.dsPush h _).bind fun u v hu => by
      rw [k.ip hu]; exact k.setIp hu _
  case dup =>
    exact k.commit h ((k.dsPop h).bindPop fun _ _ _ h => (k.dsPush h _).bind fun _ _ h =>
      (k.dsPush h _).bind fun _ _ h => k.advance h)
  case drop => exact k.commit h ((k.dsPop h).bindPop fun _ _ _ h => k.advance h)
  case swap =>
    exact k.commit h ((k.dsPop h).bindPop fun _ _ _ h => (k.dsPop h).bindPop fun _ _ _ h =>
      (k.dsPush h _).bind fun _ _ h => (k.dsPush h _).bind fun _ _ h => k.advance h)
  case push =>
    exact k.commit h ((k.dsPop h).bindPop fun _ _ _ h => (k.rsPush h _).bind fun _ _ h => k.advance h)
  case pop =>
    exact k.commit h ((k.rsPop h).bindPop fun _ _ _ h => (k.dsPush h _).bind fun _ _ h => k.advance h)
  case jmp => exact k.commit h ((k.dsPop h).bindPop fun _ _ _ h => k.jumpTo h _)
  case cjmp => exact k.commit h (k.conditional h fun x _ _ h => k.jumpTo h x)
  case call => exact k.commit h ((k.dsPop h).bindPop fun _ _ _ h => k.callTo h _)
  case ccall => exact k.commit h (k.conditional h fun x _ _ h => k.callTo h x)
  case ret => exact k.commit h ((k.rsPop h).bindPop fun _ _ _ h => k.jumpTo h _)
  case fetch =>
    refine k.commit h ((k.dsPop h).bindPop fun _ u v h => (k.checkAddr h _ _).bind fun a b ha => ?_)
    subst ha
    show WorkRel R (u.dsPush (u.memRead a) >>= _) (v.dsPush (v.memRead a) >>= _)
    rw [(m (.inl rfl)).memRead h]
    exact (k.dsPush h _).bind fun _ _ h => k.advance h
  case store =>
    exact k.commit h ((k.dsPop h).bindPop fun _ _ _ h => (k.dsPop h).bindPop fun _ _ _ h =>
      (k.checkAddr h _ _).bind fun a b ha => ha ▸ k.advance ((m (.inr rfl)).memWrite h _ _))
  case divmod =>
    refine k.commit h ((k.dsPop h).bindPop fun b _ _ h => (k.dsPop h).bindPop fun a _ _ h => ?_)
    show WorkRel R (if s32 b = 0 then _ else _) (if s32 b = 0 then _ else _)
    split
    · exact rfl
    · exact (k.dsPush h _).bind fun _ _ h => (k.dsPush h _).bind fun _ _ h => k.advance h
  case syscall0 =>
    exact k.commit h ((k.dsPop h).bindPop fun _ _ _ h => k.emit (k.advance h) _ _ _ _ _)
  case syscall1 =>
    exact k.commit h ((k.dsPop h).bindPop fun _ _ _ h => (k.dsPop h).bindPop fun _ _ _ h => k.emit (k.advance h) _ _ _ _ _)
  case syscall2 =>
    exact k.commit h ((k.dsPop h).bindPop fun _ _ _ h =>
      (k.dsPop h).bindPop fun _ _ _ h =>
      (k.dsPop h).bindPop fun _ _ _ h => k.emit (k.advance h) _ _ _ _ _)
  case syscall3 =>
    exact k.commit h ((k.dsPop h).bindPop fun _ _ _ h =>
      (k.dsPop h).bindPop fun _ _ _ h =>
      (k.dsPop h).bindPop fun _ _ _ h =>
      (k.dsPop h).bindPop fun _ _ _ h => k.emit (k.advance h) _ _ _ _ _)
  case syscall4 =>
    exact k.commit h ((k.dsPop h).bindPop fun _ _ _ h =>
      (k.dsPop h).bindPop fun _ _ _ h =>
      (k.dsPop h).bindPop fun _ _ _ h =>
      (k.dsPop h).bindPop fun _ _ _ h =>
      (k.dsPop h).bindPop fun _ _ _ h => k.emit (k.advance h) _ _ _ _ _)
  all_goals exact k.commit h (k.binary h _)

/-- What is fetched depends on the parameters, `ip` and memory alone. -/
theorem fetchInstr_congr {s t : State} (hc : t.cfg = s.cfg) (hi : t.ip = s.ip)
    (hm : ∀ a, t.memRead a = s.memRead a) : t.fetchInstr = s.fetchInstr := by
  have hw : ∀ a, t.wordsAt a = s.wordsAt a := fun a => by rw [State.wordsAt, State.wordsAt, hc, hm, hm]
  have hd : ∀ a, t.decodeAt a = s.decodeAt a := fun a => by rw [State.decodeAt, State.decodeAt, hc, hw]
  have ha : t.checkAddr t.ip .ifetch = s.checkAddr s.ip .ifetch := by
    simp only [State.checkAddr, State.addrOk, hc, hi]
  rw [State.fetchInstr, State.fetchInstr, ha, funext hd]

/-- A step is the meaning of what is fetched, or the fault of the fetch (R86). -/
theorem step_running {s : State} (h : s.run = .running) :
    step s = match s.fetchInstr with
      | .ok i => exec i s
      | .error c => .next (s.takeFault c) := by
  cases s; cases h; rfl

/-- A stopped machine stays as it is (R232). -/
theorem step_stopped {s : State} (h : s.run ≠ .running) : step s = .next s := by
  rw [step]
  cases hr : s.run
  · exact absurd hr h
  · rfl
  · rfl

/-- All that a step can do. -/
theorem step_inv {s t : State} (h : step s = .next t) :
    (s.run ≠ .running ∧ t = s) ∨
    (s.run = .running ∧ ∃ i, s.fetchInstr = .ok i ∧ exec i s = .next t) ∨
    (s.run = .running ∧ ∃ c, s.fetchInstr = .error c ∧ t = s.takeFault c) := by
  by_cases hr : s.run = .running
  · rw [step_running hr] at h
    cases hf : s.fetchInstr with
    | ok i => rw [hf] at h; exact .inr (.inl ⟨hr, i, rfl, h⟩)
    | error c => rw [hf] at h; cases h; exact .inr (.inr ⟨hr, c, rfl, rfl⟩)
  · rw [step_stopped hr] at h; cases h; exact .inl ⟨hr, rfl⟩

/-- Every step keeps a relation that the primitives and memory keep and whose states agree on `run`. -/
theorem KeptByPrimitives.step (k : KeptByPrimitives R) (m : KeptByMemory R)
    (hrun : ∀ {s t}, R s t → t.run = s.run) {s t : State} (h : R s t) :
    NextRel R (Sys2Proof.Machine.step s) (Sys2Proof.Machine.step t) := by
  by_cases hr : s.run = .running
  · rw [step_running hr, step_running (by rw [hrun h, hr]),
      fetchInstr_congr (k.cfg h) (k.ip h) (m.memRead h)]
    cases s.fetchInstr with
    | ok i => exact k.exec (fun _ => m) h
    | error c => exact ⟨_, _, rfl, rfl, k.takeFault h c⟩
  · rw [step_stopped hr, step_stopped (by rw [hrun h]; exact hr)]
    exact ⟨_, _, rfl, rfl, h⟩

end Sys2Proof.Machine
end

