-- ==== Sys2Proof/Laws/ReturnStack.lean ====
section
/-! SUPPORT. All that an instruction or a step can do to the return stack: nothing, one push, one pop (R132, R134, R114, R115). -/

namespace Sys2Proof.Machine

/-- One stack becomes another by at most one push or one pop. -/
def Stack.Moves (a b : Stack) : Prop :=
  b = a ∨ (∃ v, b = ⟨a.cells.set a.count v, a.count + 1⟩) ∨ (0 < a.count ∧ b = ⟨a.cells, a.count - 1⟩)

theorem dsPop_rs {s u : State} (h : u.rs = s.rs) : Sat u.dsPop (fun p => p.2.rs = s.rs) OwnFault :=
  (dsPop_sat u).mono fun _ hp => by rw [hp.2]; exact h

theorem dsPush_rs {s u : State} (h : u.rs = s.rs) (v : Word) : Sat (u.dsPush v) (fun t => t.rs = s.rs) OwnFault :=
  (dsPush_sat u v).mono fun _ ht => by rw [ht.2]; exact h

theorem binary_rs (f : Word → Word → Word) (s : State) : Sat (s.binary f) (fun t => s.rs.Moves t.rs) OwnFault :=
  (dsPop_rs rfl).bind fun _ h => (dsPop_rs h).bind fun _ h => (dsPush_rs h _).bind fun _ h => .inl h

theorem jumpTo_rs {r : Stack} {u : State} (h : r.Moves u.rs) (x : Word) :
    Sat (u.jumpTo x) (fun t => r.Moves t.rs) OwnFault :=
  (checkAddr_sat _ _ _).bind fun _ _ => h

theorem callTo_rs {s u : State} (h : u.rs = s.rs) (x : Word) :
    Sat (u.callTo x) (fun t => s.rs.Moves t.rs) OwnFault :=
  (checkAddr_sat _ _ _).bind fun _ _ => (rsPush_sat u _).bind fun t ht => by
    rw [ht.2]; exact .inr (.inl ⟨_, by rw [← h]; rfl⟩)

theorem conditional_rs {taken : Word → State → Work State} {s : State}
    (h : ∀ x u, u.rs = s.rs → Sat (taken x u) (fun t => s.rs.Moves t.rs) OwnFault) :
    Sat (s.conditional taken) (fun t => s.rs.Moves t.rs) OwnFault :=
  (dsPop_rs rfl).bind fun p hp => (dsPop_rs hp).bind fun q hq => by
    show Sat (if conditionHolds q.1 then taken p.1 q.2 else pure q.2.advance) _ _
    split
    · exact h _ _ hq
    · exact .inl hq

/-- What each instruction does to the return stack when it commits. -/
theorem exec_eq_commit_rs (i : Instr) (s : State) : ∃ w, exec i s = s.commit w ∧
    Sat w (fun t => s.rs.Moves t.rs) OwnFault := by
  have pop : Sat s.dsPop (fun p => p.2.rs = s.rs) OwnFault := dsPop_rs rfl
  have rpop : Sat s.rsPop (fun p => s.rs.Moves p.2.rs) OwnFault :=
    (rsPop_sat s).mono fun _ hp => by rw [hp.2]; exact .inr (.inr ⟨hp.1, rfl⟩)
  cases i
  case nop => exact ⟨.ok s.advance, rfl, .inl rfl⟩
  case stop => exact ⟨.ok { s with run := .halted }, rfl, .inl rfl⟩
  case lit => exact ⟨_, rfl, (checkAddr_sat s _ _).bind fun _ _ => (dsPush_rs rfl _).bind fun _ h => .inl h⟩
  case dup =>
    exact ⟨_, rfl, pop.bind fun _ h => (dsPush_rs h _).bind fun _ h => (dsPush_rs h _).bind fun _ h => .inl h⟩
  case drop => exact ⟨_, rfl, pop.bind fun _ h => .inl h⟩
  case swap =>
    exact ⟨_, rfl, pop.bind fun _ h => (dsPop_rs h).bind fun _ h => (dsPush_rs h _).bind fun _ h =>
      (dsPush_rs h _).bind fun _ h => .inl h⟩
  case push =>
    exact ⟨_, rfl, pop.bind fun p h => (rsPush_sat p.2 _).bind fun t ht => by
      rw [ht.2]; exact .inr (.inl ⟨_, by rw [← h]; rfl⟩)⟩
  case pop =>
    exact ⟨_, rfl, rpop.bind fun p h => (dsPush_sat p.2 _).bind fun t ht => by rw [ht.2]; exact h⟩
  case jmp => exact ⟨_, rfl, pop.bind fun _ h => jumpTo_rs (.inl h) _⟩
  case cjmp => exact ⟨_, rfl, conditional_rs fun x _ h => jumpTo_rs (.inl h) x⟩
  case call => exact ⟨_, rfl, pop.bind fun _ h => callTo_rs h _⟩
  case ccall => exact ⟨_, rfl, conditional_rs fun x _ h => callTo_rs h x⟩
  case ret => exact ⟨_, rfl, rpop.bind fun _ h => jumpTo_rs h _⟩
  case fetch =>
    exact ⟨_, rfl, pop.bind fun _ h => (checkAddr_sat _ _ _).bind fun _ _ => (dsPush_rs h _).bind fun _ h => .inl h⟩
  case store =>
    exact ⟨_, rfl, pop.bind fun _ h => (dsPop_rs h).bind fun _ h => (checkAddr_sat _ _ _).bind fun _ _ => .inl h⟩
  case divmod =>
    refine ⟨_, rfl, pop.bind fun p h => (dsPop_rs h).bind fun q h => ?_⟩
    show Sat (if s32 p.1 = 0 then _ else _) _ _
    split
    · exact fun _ => by simp
    · exact (dsPush_rs h _).bind fun _ h => (dsPush_rs h _).bind fun _ h => .inl h
  case syscall0 => exact ⟨_, rfl, pop.bind fun _ h => .inl h⟩
  case syscall1 => exact ⟨_, rfl, pop.bind fun _ h => (dsPop_rs h).bind fun _ h => .inl h⟩
  case syscall2 =>
    exact ⟨_, rfl, pop.bind fun _ h => (dsPop_rs h).bind fun _ h => (dsPop_rs h).bind fun _ h => .inl h⟩
  case syscall3 =>
    exact ⟨_, rfl, pop.bind fun _ h => (dsPop_rs h).bind fun _ h => (dsPop_rs h).bind fun _ h =>
      (dsPop_rs h).bind fun _ h => .inl h⟩
  case syscall4 =>
    exact ⟨_, rfl, pop.bind fun _ h => (dsPop_rs h).bind fun _ h => (dsPop_rs h).bind fun _ h =>
      (dsPop_rs h).bind fun _ h => (dsPop_rs h).bind fun _ h => .inl h⟩
  all_goals exact ⟨_, rfl, binary_rs _ s⟩

/-- All that a step can do to the return stack. -/
theorem step_rs {s t : State} (h : step s = .next t) : s.rs.Moves t.rs := by
  rcases step_inv h with ⟨-, rfl⟩ | ⟨-, i, -, hx⟩ | ⟨-, c, -, rfl⟩
  · exact .inl rfl
  · obtain ⟨w, hw, hs⟩ := exec_eq_commit_rs i s
    rw [hw] at hx
    rcases commit_cases hx with rfl | ⟨c, rfl, rfl⟩
    · exact hs
    · exact .inl rfl
  · exact .inl rfl

/-- Cells below both counts keep their words. -/
theorem Stack.Moves.take {a b : Stack} (h : a.Moves b) {d : Nat} (hd : d ≤ a.count) :
    b.cells.take d = a.cells.take d := by
  rcases h with rfl | ⟨v, rfl⟩ | ⟨-, rfl⟩
  · rfl
  · exact List.take_set_of_le hd
  · rfl

end Sys2Proof.Machine
end

