-- ==== Sys2Proof/Laws/Safety.lean ====
section
/-! SUPPORT. The terms of Safety.lean: fault entry keeps the invariants, Table M column by column, live cells under pop and push, the words a fetch looks at. -/

namespace Sys2Proof.Machine

/-- Fault entry keeps the invariants. -/
theorem takeFault_wf {s : State} (w : s.wf) (c : FaultCause) : (s.takeFault c).wf :=
  { w with faultIff := by simp, faultIp := by simp }

/-! ## Table M, column by column (R228) -/

theorem needsData_few {s : State} {n : Nat} (h : s.sp < n) :
    s.needsData n = some (.stackUnderflow .data .pop) := if_pos h

theorem needsData_enough {s : State} {n : Nat} (h : n ≤ s.sp) : s.needsData n = none := if_neg (by omega)

theorem needsReturn_few {s : State} {n : Nat} (h : s.rp < n) :
    s.needsReturn n = some (.stackUnderflow .ret .pop) := if_pos h

theorem needsReturn_enough {s : State} {n : Nat} (h : n ≤ s.rp) : s.needsReturn n = none := if_neg (by omega)

theorem fullData_full {s : State} (h : s.sp = s.cfg.dsCap) :
    s.fullData = some (.stackOverflow .data .push) := if_pos h

theorem fullData_room {s : State} (h : s.sp ≠ s.cfg.dsCap) : s.fullData = none := if_neg h

theorem fullReturn_full {s : State} (h : s.rp = s.cfg.rsCap) :
    s.fullReturn = some (.stackOverflow .ret .push) := if_pos h

theorem fullReturn_room {s : State} (h : s.rp ≠ s.cfg.rsCap) : s.fullReturn = none := if_neg h

theorem badAddr_bad {s : State} {x : Word} (h : ¬s.addrOk (s32 x)) (k : Access) :
    s.badAddr x k = some (.memoryOutOfRange k x) :=
  if_pos (by simp only [State.addrOk, s32] at h; omega)

theorem badAddr_ok {s : State} {x : Word} (h : s.addrOk (s32 x)) (k : Access) : s.badAddr x k = none :=
  if_neg (by simp only [State.addrOk, s32] at h; omega)

/-! ## Live cells (R30) -/

/-- Stacks with the same live cells have the same top. -/
theorem live_peek {a b : Stack} (hc : b.count = a.count) (h : b.live = a.live) (ha : 0 < a.count) :
    b.peek 0 = a.peek 0 := by
  have := congrArg (fun l => l.getD (a.count - 1) 0) h
  simp only [Stack.live, hc, List.getD_eq_getElem?_getD, List.getElem?_take] at this
  rw [if_pos (by omega), if_pos (by omega)] at this
  simpa [Stack.peek, hc, List.getD_eq_getElem?_getD] using this

/-- A pop takes the last live cell away. -/
theorem live_pop (a : Stack) : (⟨a.cells, a.count - 1⟩ : Stack).live = a.live.take (a.count - 1) := by
  simp [Stack.live, List.take_take]

/-- A push adds one live cell. -/
theorem live_push {a : Stack} (h : a.count < a.cells.length) (v : Word) :
    (⟨a.cells.set a.count v, a.count + 1⟩ : Stack).live = a.live ++ [v] := by
  simp only [Stack.live]
  rw [List.take_add_one]
  simp [h, List.take_set_of_le]

/-! ## The words a fetch looks at (R86) -/

/-- Inside memory, what is fetched is what is decoded at `ip`. -/
theorem fetchInstr_inside {s : State} (h : s.ip < s.cfg.memWords) : s.fetchInstr = s.decodeAt s.ip := by
  rw [State.fetchInstr, checkAddr_of_ok ⟨by omega, by omega⟩]
  show s.decodeAt (Int.toNat s.ip) = _
  rw [Int.toNat_natCast]

theorem wordsAt_cons (s : State) (a : Nat) : ∃ rest, s.wordsAt a = s.mem.read a :: rest := by
  rw [State.wordsAt]; split <;> exact ⟨_, rfl⟩

/-- Every instruction answers a next state. -/
theorem exec_next (i : Instr) (s : State) : ∃ t, exec i s = .next t := by
  obtain ⟨w, hw, _⟩ := exec_eq_commit i s
  rw [hw]; exact commit_next s w

end Sys2Proof.Machine
end

