-- ==== Sys2Proof/Tests/Slice0.lean ====
section
/-! SUPPORT. Tests of one step or one decoding, their expected results from the spec (the row of spec/95_test_vectors.md is named), and a witness for the hypotheses of every statement. -/

namespace Sys2Proof.Tests

open Sys2Proof Sys2Proof.Machine

/-! ## Helpers -/

/-- Words placed at `ip`, a data and a return stack (bottom first), all else as after reset:
the start of a vector of spec/95_test_vectors.md Part 2, in its configuration (1024, 16, 16). -/
def machine (ws : List Word) (ip : Nat) (d r : List Word) : State :=
  { State.reset with
    mem := Memory.writeWords [] ip ws
    ds := ⟨d ++ List.replicate (16 - d.length) 0, d.length⟩
    rs := ⟨r ++ List.replicate (16 - r.length) 0, r.length⟩
    ip := ip }

/-- What a vector says of the state after its step. -/
structure View where
  ip : Nat
  data : List Word
  ret : List Word
  run : RunState
  fault : Option FaultRecord
  deriving DecidableEq, Repr

/-- The view of an outcome. -/
def view : Host.Outcome State Fault Refusal → Option View
  | .next t => some ⟨t.ip, t.ds.live, t.rs.live, t.run, t.fault⟩
  | .fault _ => none
  | .refused _ => none

/-- The events of an outcome. -/
def eventsOf : Host.Outcome State Fault Refusal → List Event
  | .next t => t.events
  | .fault _ => []
  | .refused _ => []

/-- One cell of an outcome's memory. -/
def cellOf (a : Nat) : Host.Outcome State Fault Refusal → Option Word
  | .next t => some (t.mem.read a)
  | .fault _ => none
  | .refused _ => none

/-- A step that continues. -/
def continued (ip : Nat) (d r : List Word) : Option View := some ⟨ip, d, r, .running, none⟩

/-- A step that faults: the stacks and `ip` of before. -/
def faulted (ip : Nat) (d r : List Word) (c : FaultCause) : Option View :=
  some ⟨ip, d, r, .faulted, some ⟨c, ip⟩⟩

/-- A full stack of zeros. -/
def full : List Word := List.replicate 16 0

theorem machine_wf {ws : List Word} {ip : Nat} {d r : List Word} (h : ip + ws.length ≤ 1024)
    (hd : d.length ≤ 16) (hr : r.length ≤ 16) : (machine ws ip d r).wf where
  cfgOk := show defaultConfig.wf by decide
  memOk := Memory.writeWords_wf ws ⟨.nil, by simp⟩ ip
  memBound := Memory.writeWords_bound ws (by simp) h
  dsCells := by
    show (d ++ List.replicate (16 - d.length) 0).length = 16
    simp only [List.length_append, List.length_replicate]; omega
  dsCount := hd
  rsCells := by
    show (r ++ List.replicate (16 - r.length) 0).length = 16
    simp only [List.length_append, List.length_replicate]; omega
  rsCount := hr
  ipBound := by show ip ≤ 1024; omega
  faultIff := show (none : Option FaultRecord).isSome = true ↔ RunState.running = .faulted by decide
  faultIp := fun _ h => by cases h
  eventContext := fun _ h => by cases h

/-! ## Well-formedness: an ill-formed term for each check -/

theorem test_wf_default : defaultConfig.wf := by decide

theorem test_wf_no_memory : ¬({ defaultConfig with memWords := 0 } : Config).wf := by decide

theorem test_wf_memory_beyond_signed : ¬({ defaultConfig with memWords := 2 ^ 31 } : Config).wf := by decide

theorem test_wf_no_data_stack : ¬({ defaultConfig with dsCap := 0 } : Config).wf := by decide

theorem test_wf_no_return_stack : ¬({ defaultConfig with rsCap := 0 } : Config).wf := by decide

theorem test_wf_map_short : ¬OpcodeMapWf [.nop, .stop] := by decide

theorem test_wf_map_twice : ¬OpcodeMapWf (.stop :: defaultOpcodeMap.tail) := by decide

theorem test_wf_instr_without_opcode : ¬Instr.wf defaultOpcodeMap.tail .nop := by decide

theorem test_wf_image_too_long : ¬ImageWf { defaultConfig with memWords := 2 } [1, 1, 1] := by decide

/-! ## Decoding: words written out from Table OP (R84) and R81 to R87 -/

/-- Every one-word instruction, each from its word of Table OP. -/
theorem test_decode_control_and_stack :
    [decodeTableWord 32 0x00, decodeTableWord 32 0x01, decodeTableWord 32 0x03, decodeTableWord 32 0x04,
     decodeTableWord 32 0x05, decodeTableWord 32 0x06, decodeTableWord 32 0x07] =
    [some .nop, some .stop, some .dup, some .drop, some .swap, some .push, some .pop] := by decide

theorem test_decode_transfer_and_memory :
    [decodeTableWord 32 0x08, decodeTableWord 32 0x09, decodeTableWord 32 0x0A, decodeTableWord 32 0x0B,
     decodeTableWord 32 0x0C, decodeTableWord 32 0x0D, decodeTableWord 32 0x0E] =
    [some .jmp, some .cjmp, some .call, some .ccall, some .ret, some .fetch, some .store] := by decide

theorem test_decode_arithmetic_and_comparison :
    [decodeTableWord 32 0x0F, decodeTableWord 32 0x10, decodeTableWord 32 0x11, decodeTableWord 32 0x12,
     decodeTableWord 32 0x13, decodeTableWord 32 0x14, decodeTableWord 32 0x15, decodeTableWord 32 0x16] =
    [some .add, some .sub, some .mul, some .divmod, some .eq, some .ne, some .lt, some .gt] := by decide

theorem test_decode_bitwise_and_syscall :
    [decodeTableWord 32 0x17, decodeTableWord 32 0x18, decodeTableWord 32 0x19, decodeTableWord 32 0x1A,
     decodeTableWord 32 0x1B, decodeTableWord 32 0x1C, decodeTableWord 32 0x1D, decodeTableWord 32 0x1E,
     decodeTableWord 32 0x1F] =
    [some .and, some .or, some .xor, some .shift, some .syscall0, some .syscall1, some .syscall2,
     some .syscall3, some .syscall4] := by decide

/-- The word of each family bit by bit: bits 31..5 zero, bits 4..0 the opcode (R82, R84). -/
theorem test_decode_bit_by_bit :
    decode defaultOpcodeMap [0b00000000000000000000000000000000] = .ok (.nop, []) ∧
    decode defaultOpcodeMap [0b00000000000000000000000000000101] = .ok (.swap, []) ∧
    decode defaultOpcodeMap [0b00000000000000000000000000001011] = .ok (.ccall, []) ∧
    decode defaultOpcodeMap [0b00000000000000000000000000001101] = .ok (.fetch, []) ∧
    decode defaultOpcodeMap [0b00000000000000000000000000010001] = .ok (.mul, []) ∧
    decode defaultOpcodeMap [0b00000000000000000000000000010101] = .ok (.lt, []) ∧
    decode defaultOpcodeMap [0b00000000000000000000000000011010] = .ok (.shift, []) ∧
    decode defaultOpcodeMap [0b00000000000000000000000000011110] = .ok (.syscall3, []) := by decide

/-- `lit` is two words, its immediate any word (R81, R83; image of S1, V-ST-3). -/
theorem test_decode_lit :
    decode defaultOpcodeMap [2, 5, 3, 1] = .ok (.lit 5, [3, 1]) ∧
    decode defaultOpcodeMap [2, 0x20] = .ok (.lit 0x20, []) ∧
    decodeTableWord 64 0xFFFFFFFF00000002 = some (.lit 0xFFFFFFFF) := by decide

/-- R85: outside `0x00 .. 0x1F` nothing decodes, whatever the low byte says. -/
theorem test_decode_illegal :
    decode defaultOpcodeMap [0x20] = .error (.illegalOpcode 0x20) ∧
    decode defaultOpcodeMap [0x100] = .error (.illegalOpcode 0x100) ∧
    decode defaultOpcodeMap [0xFFFFFFFF] = .error (.illegalOpcode 0xFFFFFFFF) ∧
    decode defaultOpcodeMap [2] = .error .missingImmediate ∧
    decode defaultOpcodeMap [] = .error .noWord := by decide

/-- The encoder on the images of S5 and S8. -/
theorem test_encode :
    encode defaultOpcodeMap (.lit 100) ++ encode defaultOpcodeMap .fetch = [2, 0x64, 0xD] ∧
    encode defaultOpcodeMap .syscall1 = [0x1C] := by decide

/-! ## Reset and load (2.10) -/

theorem test_reset_wf : State.reset.wf := by constructor <;> decide

theorem test_reset_memory_wf : State.reset.mem.wf := by decide

/-- V-RL-2: `reset`, `load([2, 5, 3, 1])`. -/
theorem test_load :
    [0, 1, 2, 3, 4, 1023].map (fun a => cellOf a (State.reset.load [2, 5, 3, 1])) =
    [some 2, some 5, some 3, some 1, some 0, some 0] := by decide

/-- V-RL-4 in small: an image one word too long is refused (R262). -/
theorem test_load_too_long :
    (State.resetWith { defaultConfig with memWords := 2 } none 0).load [1, 1, 1] =
      .refused .imageTooLong := rfl

/-- R262: load is no move outside the reset state. -/
theorem test_load_outside_reset : (machine [] 0 [1] []).load [1] = .fault .loadOutsideReset := rfl

/-- R262: load twice is no move, after an image that changed nothing as well. -/
theorem test_load_twice :
    let s := { State.reset with loaded := true }
    State.reset.load [] = .next s ∧ s.load [1] = .fault .loadOutsideReset := ⟨rfl, rfl⟩

/-- A placed instruction is what the next step runs. -/
theorem test_withFetchWord :
    view (step (State.reset.withFetchWord 64 0x0000000700000002)) = continued 2 [7] [] := by decide

/-- The second word is written only where memory has a cell for it. -/
theorem test_withFetchWord_last_cell :
    (State.withFetchWord (machine [] 1023 [] []) 32 0x1).mem = [(1023, 1)] := by decide

/-! ## One step, at most two per instruction -/

/-- V-MC-3. -/
theorem test_nop_last : view (step (machine [0] 1023 [] [])) = continued 1024 [] [] := by decide

/-- V-MC-2. -/
theorem test_stop : view (step (machine [1] 5 [1, 2] [3])) = some ⟨5, [1, 2], [3], .halted, none⟩ := by decide

/-- V-ST-2. -/
theorem test_lit : view (step (machine [2, 0xFFFFFFFF] 0 [7] [])) = continued 2 [7, 0xFFFFFFFF] [] := by decide

/-- V-ST-6. -/
theorem test_lit_beyond :
    view (step (machine [2] 1023 full [])) = faulted 1023 full [] (.memoryOutOfRange .ifetch 1024) := by decide

/-- V-ST-9. -/
theorem test_dup_fills : view (step (machine [3] 0 (List.replicate 15 0) [])) = continued 1 full [] := by decide

/-- V-ST-10. -/
theorem test_dup_overflow :
    view (step (machine [3] 0 full [])) = faulted 0 full [] (.stackOverflow .data .push) := by decide

/-- V-ST-11. -/
theorem test_drop : view (step (machine [4] 0 [5, 6] [])) = continued 1 [5] [] := by decide

/-- V-ST-13. -/
theorem test_swap : view (step (machine [5] 0 [1, 2, 3] [])) = continued 1 [1, 3, 2] [] := by decide

/-- V-ST-14. -/
theorem test_swap_underflow :
    view (step (machine [5] 0 [1] [])) = faulted 0 [1] [] (.stackUnderflow .data .pop) := by decide

/-- V-ST-16. -/
theorem test_push : view (step (machine [6] 0 [1, 77] [4])) = continued 1 [1] [4, 77] := by decide

/-- V-ST-18. -/
theorem test_push_overflow :
    view (step (machine [6] 0 [1] full)) = faulted 0 [1] full (.stackOverflow .ret .push) := by decide

/-- V-ST-20. -/
theorem test_pop : view (step (machine [7] 0 [1] [4, 77])) = continued 1 [1, 77] [4] := by decide

/-- V-ST-23. -/
theorem test_pop_underflow_first :
    view (step (machine [7] 0 full [])) = faulted 0 full [] (.stackUnderflow .ret .pop) := by decide

/-- V-CT-4. -/
theorem test_jmp_last : view (step (machine [8] 4 [1023] [])) = continued 1023 [] [] := by decide

/-- V-CT-5. -/
theorem test_jmp_beyond :
    view (step (machine [8] 4 [1024] [])) = faulted 4 [1024] [] (.memoryOutOfRange .target 1024) := by decide

/-- V-CT-8. -/
theorem test_cjmp_taken : view (step (machine [9] 16 [2, 2, 2] [])) = continued 2 [2] [] := by decide

/-- V-CT-12. -/
theorem test_cjmp_not_taken : view (step (machine [9] 16 [0, 5000] [])) = continued 17 [] [] := by decide

/-- V-CT-16. -/
theorem test_call : view (step (machine [0xA] 4 [7, 9] [])) = continued 9 [7] [5] := by decide

/-- V-CT-21. -/
theorem test_call_target_first :
    view (step (machine [0xA] 4 [2000] full)) = faulted 4 [2000] full (.memoryOutOfRange .target 2000) := by decide

/-- V-CT-22. -/
theorem test_ccall_taken : view (step (machine [0xB] 7 [0xFFFFFFFF, 12] [])) = continued 12 [] [8] := by decide

/-- V-CT-24. -/
theorem test_ccall_not_taken :
    view (step (machine [0xB] 7 [0, 0xFFFFFFFB] full)) = continued 8 [] full := by decide

/-- V-CT-29. -/
theorem test_return : view (step (machine [0xC] 11 [] [3, 0])) = continued 0 [] [3] := by decide

/-- V-CT-31. -/
theorem test_return_beyond :
    view (step (machine [0xC] 11 [] [1024])) = faulted 11 [] [1024] (.memoryOutOfRange .target 1024) := by decide

/-- V-MA-3. -/
theorem test_fetch_own_word : view (step (machine [0xD] 0 [0] [])) = continued 1 [13] [] := by decide

/-- V-MA-7. -/
theorem test_fetch_negative :
    view (step (machine [0xD] 0 [0xFFFFFFFF] [])) =
      faulted 0 [0xFFFFFFFF] [] (.memoryOutOfRange .fetch 0xFFFFFFFF) := by decide

/-- V-MA-11. -/
theorem test_store :
    view (step (machine [0xE] 0 [100, 7] [])) = continued 1 [] [] ∧
    [7, 100].map (fun a => cellOf a (step (machine [0xE] 0 [100, 7] []))) = [some 100, some 0] := by decide

/-- V-MA-16. -/
theorem test_store_underflow_first :
    view (step (machine [0xE] 0 [1024] [])) = faulted 0 [1024] [] (.stackUnderflow .data .pop) := by decide

/-- V-AR-3. -/
theorem test_add_wraps :
    view (step (machine [0xF] 0 [0x7FFFFFFF, 1] [])) = continued 1 [0x80000000] [] := by decide

/-- V-AR-8. -/
theorem test_add_deeper : view (step (machine [0xF] 0 [9, 1, 2] [])) = continued 1 [9, 3] [] := by decide

/-- V-AR-12. -/
theorem test_sub_order : view (step (machine [0x10] 0 [1, 3] [])) = continued 1 [0xFFFFFFFE] [] := by decide

/-- V-AR-17: -1 - INT_MAX. -/
theorem test_sub_wraps :
    view (step (machine [0x10] 0 [0xFFFFFFFF, 0x7FFFFFFF] [])) = continued 1 [0x80000000] [] := by decide

/-- V-AR-27: 46341 squared is -2147479015. -/
theorem test_mul_low_bits :
    view (step (machine [0x11] 0 [46341, 46341] [])) = continued 1 [BitVec.ofInt 32 (-2147479015)] [] := by decide

/-- V-AR-32 and V-AR-39: -7 by 2 is -3, rest -1, and INT_MIN by -1 wraps. -/
theorem test_divmod_truncates :
    view (step (machine [0x12] 0 [0xFFFFFFF9, 2] [])) = continued 1 [0xFFFFFFFD, 0xFFFFFFFF] [] ∧
    view (step (machine [0x12] 0 [0x80000000, 0xFFFFFFFF] [])) = continued 1 [0x80000000, 0] [] := by decide

/-- V-AR-48 and V-AR-51. -/
theorem test_divmod_faults :
    view (step (machine [0x12] 0 [7, 0] [])) = faulted 0 [7, 0] [] .divisionByZero ∧
    view (step (machine [0x12] 0 [0] [])) = faulted 0 [0] [] (.stackUnderflow .data .pop) := by decide

/-- V-CMP-1 and V-CMP-5. -/
theorem test_eq :
    view (step (machine [0x13] 0 [3, 3] [])) = continued 1 [0xFFFFFFFF] [] ∧
    view (step (machine [0x13] 0 [0, 0x80000000] [])) = continued 1 [0] [] := by decide

/-- V-CMP-6 and V-CMP-9. -/
theorem test_ne :
    view (step (machine [0x14] 0 [3, 3] [])) = continued 1 [0] [] ∧
    view (step (machine [0x14] 0 [0x80000000, 0x7FFFFFFF] [])) = continued 1 [0xFFFFFFFF] [] := by decide

/-- V-CMP-10 and V-CMP-15. -/
theorem test_lt :
    view (step (machine [0x15] 0 [1, 2] [])) = continued 1 [0xFFFFFFFF] [] ∧
    view (step (machine [0x15] 0 [0x80000000, 0x7FFFFFFF] [])) = continued 1 [0xFFFFFFFF] [] := by decide

/-- V-CMP-19 and V-CMP-23. -/
theorem test_gt :
    view (step (machine [0x16] 0 [2, 1] [])) = continued 1 [0xFFFFFFFF] [] ∧
    view (step (machine [0x16] 0 [0x80000000, 0x7FFFFFFF] [])) = continued 1 [0] [] := by decide

/-- V-BW-1. -/
theorem test_and : view (step (machine [0x17] 0 [12, 10] [])) = continued 1 [8] [] := by decide

/-- V-BW-8. -/
theorem test_or : view (step (machine [0x18] 0 [12, 10] [])) = continued 1 [14] [] := by decide

/-- V-BW-15. -/
theorem test_xor : view (step (machine [0x19] 0 [12, 10] [])) = continued 1 [6] [] := by decide

/-- V-BW-27, V-BW-29, V-BW-48: left by 32, by 31, by INT_MAX. -/
theorem test_shift_left :
    view (step (machine [0x1A] 0 [1, 32] [])) = continued 1 [0] [] ∧
    view (step (machine [0x1A] 0 [3, 31] [])) = continued 1 [0x80000000] [] ∧
    view (step (machine [0x1A] 0 [5, 0x7FFFFFFF] [])) = continued 1 [0] [] := by decide

/-- V-BW-35, V-BW-40, V-BW-47: -7 by -1, -1 by -32, -5 by INT_MIN. -/
theorem test_shift_right :
    view (step (machine [0x1A] 0 [0xFFFFFFF9, 0xFFFFFFFF] [])) = continued 1 [0xFFFFFFFC] [] ∧
    view (step (machine [0x1A] 0 [0xFFFFFFFF, 0xFFFFFFE0] [])) = continued 1 [0xFFFFFFFF] [] ∧
    view (step (machine [0x1A] 0 [0xFFFFFFFB, 0x80000000] [])) = continued 1 [0xFFFFFFFF] [] := by decide

/-- V-SYS-0. -/
theorem test_syscall0 :
    view (step (machine [0x1B] 0 [5, 0] [])) = continued 1 [5] [] ∧
    eventsOf (step (machine [0x1B] 0 [5, 0] [])) = [⟨0, 0, 0, 0, 0, 0⟩] := by decide

/-- V-SYS-2. -/
theorem test_syscall1 : eventsOf (step (machine [0x1C] 0 [1, 9] [])) = [⟨9, 1, 0, 0, 0, 0⟩] := by decide

/-- V-SYS-9. -/
theorem test_syscall1_underflow :
    view (step (machine [0x1C] 0 [1] [])) = faulted 0 [1] [] (.stackUnderflow .data .pop) ∧
    eventsOf (step (machine [0x1C] 0 [1] [])) = [] := by decide

/-- V-SYS-3. -/
theorem test_syscall2 : eventsOf (step (machine [0x1D] 0 [10, 20, 7] [])) = [⟨7, 10, 20, 0, 0, 0⟩] := by decide

/-- V-SYS-4. -/
theorem test_syscall3 :
    eventsOf (step (machine [0x1E] 0 [10, 20, 30, 7] [])) = [⟨7, 10, 20, 30, 0, 0⟩] := by decide

/-- V-SYS-6. -/
theorem test_syscall4 :
    view (step (machine [0x1F] 0 [99, 10, 20, 30, 40, 0xFFFFFFF9] [])) = continued 1 [99] [] ∧
    eventsOf (step (machine [0x1F] 0 [99, 10, 20, 30, 40, 0xFFFFFFF9] [])) =
      [⟨0xFFFFFFF9, 10, 20, 30, 40, 0⟩] := by decide

/-- R85: a word outside the enumeration, fetched as an opcode. -/
theorem test_illegal_opcode :
    view (step (machine [0x21] 7 [1] [])) = faulted 7 [1] [] (.decodeFault 0x21) := by decide

/-- The last step of V-FD-11: `ip` one past the last cell. -/
theorem test_fetch_beyond :
    view (step (machine [] 1024 [] [])) = faulted 1024 [] [] (.memoryOutOfRange .ifetch 1024) := by decide

/-- V-FD-10, its second step. -/
theorem test_faulted_stays :
    let s := (machine [4] 0 [] []).takeFault (.stackUnderflow .data .pop)
    step s = .next s := rfl

/-! ## Witnesses: the hypotheses of each statement, met together at boundary values -/

/-- A state of the vectors is well formed. -/
theorem witness_wf : (machine [0xE, 0] 0 [5, 1023] [9]).wf := machine_wf (by decide) (by decide) (by decide)

theorem witness_DecodeOfEncodeIsIdentity : OpcodeMapWf defaultOpcodeMap ∧ OpcodeMapWf defaultOpcodeMap.reverse := by decide

theorem witness_EncodeOfDecodeIsIdentity :
    OpcodeMapWf defaultOpcodeMap.reverse ∧ decode defaultOpcodeMap.reverse [0x1D, 7, 9] = .ok (.lit 7, [9]) := by decide

theorem witness_OpcodeWordFixesLength :
    OpcodeMapWf defaultOpcodeMap ∧ opOfWord defaultOpcodeMap 0x1F = some .syscall4 ∧ Op.syscall4 ≠ .lit ∧
    opOfWord defaultOpcodeMap 2 = some .lit := by decide

/-- One state for every clause of the statement on illegal words: `0x20` and `0x1F` at `ip`,
a `lit` with its immediate in the last cell, a `fetch` of the first and the last cell. -/
theorem witness_IllegalWordsFaultOnlyAsOpcodes :
    (∃ s : State, s.wf ∧ s.run = .running ∧ s.ip < s.cfg.memWords ∧ 0x1F < (s.mem.read s.ip).toNat) ∧
    (∃ s : State, s.wf ∧ s.run = .running ∧ s.ip < s.cfg.memWords ∧ (s.mem.read s.ip).toNat ≤ 0x1F) ∧
    (∃ s : State, s.wf ∧ s.run = .running ∧ s.ip + 1 < s.cfg.memWords ∧ s.sp < s.cfg.dsCap ∧
      s.mem.read s.ip = wordOfOp s.cfg.opcodeMap .lit) ∧
    (∃ s : State, s.wf ∧ s.run = .running ∧ 1 ≤ s.sp ∧ TargetOk s s.tos ∧
      s.mem.read s.ip = wordOfOp s.cfg.opcodeMap .fetch) ∧
    (∃ s : State, s.wf ∧ s.run = .running ∧ 1 ≤ s.sp ∧ TargetOk s s.tos ∧
      s.mem.read s.ip = wordOfOp s.cfg.opcodeMap .fetch) :=
  ⟨⟨machine [0x20] 1023 [] [], machine_wf (by decide) (by decide) (by decide), by decide⟩,
   ⟨machine [0x1F] 1023 [] [], machine_wf (by decide) (by decide) (by decide), by decide⟩,
   ⟨machine [2, 0x20] 1022 (List.replicate 15 0) [], machine_wf (by decide) (by decide) (by decide), by decide⟩,
   ⟨machine [0xD] 0 [0] [], machine_wf (by decide) (by decide) (by decide), by decide⟩,
   ⟨machine [0xD] 0 [1023] [], machine_wf (by decide) (by decide) (by decide), by decide⟩⟩

/-- In the middle of memory and in its last cell. -/
theorem witness_StepRunsDecodedInstruction :
    (∃ (s : State) (i : Instr) (rest : List Word), s.run = .running ∧ s.ip < s.cfg.memWords ∧
      decode s.cfg.opcodeMap (s.wordsAt s.ip) = .ok (i, rest)) ∧
    ∃ (s : State) (i : Instr) (rest : List Word), s.run = .running ∧ s.ip + 1 = s.cfg.memWords ∧
      decode s.cfg.opcodeMap (s.wordsAt s.ip) = .ok (i, rest) :=
  ⟨⟨machine [2, 7] 5 [] [], .lit 7, [], by decide⟩, ⟨machine [0x1A] 1023 [] [], .shift, [], by decide⟩⟩

theorem witness_FetchBeyondMemoryFaults :
    (∃ s : State, s.wf ∧ s.run = .running ∧ s.ip = s.cfg.memWords) ∧
    ∃ s : State, s.wf ∧ s.run = .running ∧ s.ip + 1 = s.cfg.memWords ∧
      s.mem.read s.ip = wordOfOp s.cfg.opcodeMap .lit :=
  ⟨⟨machine [] 1024 [] [], machine_wf (by decide) (by decide) (by decide), by decide⟩,
   ⟨machine [2] 1023 [] [], machine_wf (by decide) (by decide) (by decide), by decide⟩⟩

theorem witness_StoppedStepChangesNothing :
    { State.reset with run := .halted }.run ≠ .running ∧
    (State.reset.takeFault (.decodeFault 0x20)).run ≠ .running := by decide

/-- Running, Halted and Faulted states that keep the invariants, and a step from each. -/
theorem witness_StepKeepsWellFormed :
    (∃ s t : State, s.wf ∧ s.run = .running ∧ step s = .next t) ∧
    (∃ s t : State, s.wf ∧ s.run = .halted ∧ step s = .next t) ∧
    (∃ s t : State, s.wf ∧ s.run = .faulted ∧ step s = .next t) := by
  refine ⟨⟨machine [0] 1023 [] [], _, machine_wf (by decide) (by decide) (by decide), rfl, rfl⟩,
    ⟨{ machine [1] 0 [] [] with run := .halted }, _, ?_, rfl, rfl⟩,
    ⟨(machine [4] 0 [] []).takeFault (.stackUnderflow .data .pop), _, ?_, rfl, rfl⟩⟩ <;>
    constructor <;> decide

theorem witness_ResetIsWellFormed : ({ defaultConfig with memWords := 1, dsCap := 1, rsCap := 1 } : Config).wf := by decide

/-- A Running state at a `stop`, and the Halted state after it. -/
theorem witness_HaltedStaysAtStop :
    (∃ s t : State, s.haltedAtStop ∧ step s = .next t ∧ t.run = .halted) ∧
    (∃ s t : State, s.run = .halted ∧ s.haltedAtStop ∧ step s = .next t) :=
  ⟨⟨machine [1] 1023 [] [], _, fun h => absurd h (by decide), rfl, rfl⟩,
   ⟨{ machine [1] 1023 [] [] with run := .halted }, _, rfl, fun _ => rfl, rfl⟩⟩

theorem witness_FaultEntryIsPrecise :
    ∃ s t : State, s.run = .running ∧ step s = .next t ∧ t.run = .faulted :=
  ⟨machine [0x12] 0 [7, 0] [], _, rfl, rfl, rfl⟩

theorem witness_FaultCodesOfTableF :
    State.reset.fault = none ∧
    (State.reset.takeFault (.decodeFault 0x20)).fault = some ⟨.decodeFault 0x20, 0⟩ ∧
    (State.reset.takeFault (.stackUnderflow .ret .pop)).fault = some ⟨.stackUnderflow .ret .pop, 0⟩ ∧
    (State.reset.takeFault (.stackOverflow .data .push)).fault = some ⟨.stackOverflow .data .push, 0⟩ ∧
    (State.reset.takeFault (.memoryOutOfRange .store 1024)).fault = some ⟨.memoryOutOfRange .store 1024, 0⟩ ∧
    (State.reset.takeFault .divisionByZero).fault = some ⟨.divisionByZero, 0⟩ := by decide

/-- A row of Table M that faults and one that does not, at full and empty stacks. -/
theorem witness_InstructionFaultsAreTableM :
    (∃ s : State, s.wf ∧ s.ip < s.cfg.memWords ∧
      s.faultTable .ccall = some (.stackOverflow .ret .push)) ∧
    (∃ s : State, s.wf ∧ s.ip < s.cfg.memWords ∧ s.faultTable .ccall = none) :=
  ⟨⟨machine [] 0 [5, 1023] full, machine_wf (by decide) (by decide) (by decide), by decide⟩,
   ⟨machine [] 1023 [5, 1023] (List.replicate 15 0), machine_wf (by decide) (by decide) (by decide), by decide⟩⟩

/-- A `stop`, a `lit` and a default advance that commit. -/
theorem witness_DefaultAdvanceAndResult :
    (∃ s t : State, s.run = .running ∧ exec .stop s = .next t ∧ t.run ≠ .faulted) ∧
    (∃ s t : State, s.run = .running ∧ exec (.lit 0x20) s = .next t ∧ t.run ≠ .faulted) ∧
    (∃ s t : State, s.run = .running ∧ exec .add s = .next t ∧ t.run ≠ .faulted ∧
      Instr.add.op ∉ [Op.stop, .lit, .jmp, .cjmp, .call, .ccall, .ret]) :=
  ⟨⟨machine [] 1023 [] [], _, rfl, rfl, by decide⟩, ⟨machine [] 1022 [] [], _, rfl, rfl, by decide⟩,
   ⟨machine [] 1023 [1, 2] [], _, rfl, rfl, by decide, by decide⟩⟩

/-- Each clause: another instruction, a `store` that writes, one that faults, agreeing memories, the transactions. -/
theorem witness_OnlyStoreWritesMemory :
    (∃ s t : State, Instr.add ≠ .store ∧ Instr.add ≠ .fetch ∧ exec .add s = .next t) ∧
    (∃ s t : State, exec .store s = .next t ∧ 2 ≤ s.sp ∧ TargetOk s s.tos ∧ s.tos = 1023) ∧
    (∃ s t : State, exec .store s = .next t ∧ ¬(2 ≤ s.sp ∧ TargetOk s s.tos) ∧ s.tos = 1024) ∧
    (∃ (s : State) (m : Memory), m ≠ s.mem ∧ m.read s.ip = s.mem.read s.ip ∧ m.read (s.ip + 1) = s.mem.read (s.ip + 1)) ∧
    (∃ t : State, State.reset.transact (.reset (some 1) 2) = .next t) ∧
    (∃ t : State, State.reset.transact (.load [2, 5, 3, 1]) = .next t) :=
  ⟨⟨machine [] 0 [1, 2] [], _, by decide, by decide, rfl⟩, ⟨machine [] 0 [7, 1023] [], _, rfl, by decide⟩,
   ⟨machine [] 0 [7, 1024] [], _, rfl, by decide⟩, ⟨machine [] 0 [] [], [(2, 1)], by decide⟩, ⟨_, rfl⟩, ⟨_, rfl⟩⟩

/-- The statements over every step that answers next. -/
theorem witness_StepKeepsParametersAndContext : ∃ t : State, step (machine [0xA] 1023 [0] []) = .next t := ⟨_, rfl⟩

/-- A step that emits an event and one that does not. -/
theorem witness_SyscallsAloneEmitEvents :
    (∃ s t : State, step s = .next t ∧ t.events ≠ s.events) ∧ (∃ s t : State, step s = .next t ∧ t.events = s.events) :=
  ⟨⟨machine [0x1F] 0 [10, 20, 30, 40, 7] [], _, rfl, by decide⟩, ⟨machine [0x1F] 0 [20, 30, 40, 7] [], _, rfl, by decide⟩⟩

theorem witness_HostCannotInfluenceTheCore : ∃ t : State, step (machine [0x1C] 0 [9, 1] []) = .next t := ⟨_, rfl⟩

/-- Two different states with the same live cells. -/
theorem witness_StaleCellsAreUnobservable : ∃ s t : State, s ≠ t ∧ s.wf ∧ t.wf ∧ s.sameLive t := by
  refine ⟨machine [3] 0 [5] [], { machine [3] 0 [5] [] with ds := ⟨5 :: List.replicate 15 9, 1⟩ },
    by decide, machine_wf (by decide) (by decide) (by decide), ?_, ?_⟩ <;> constructor <;> decide

/-- Each clause at the depth where it just holds, and a sequence that runs through. -/
theorem witness_StackDepthLaw :
    (∃ s : State, s.wf ∧ s.ip < s.cfg.memWords ∧ s.faultTable (.lit 5) = none ∧ s.faultTable .dup = none ∧
      s.faultTable .drop = none ∧ s.faultTable .swap = none ∧ s.faultTable .push = none ∧ s.faultTable .pop = none) ∧
    (∃ s t : State, RunsThrough [.dup, .swap, .drop] s t) :=
  ⟨⟨machine [] 1022 (List.replicate 15 0) [9], machine_wf (by decide) (by decide) (by decide), by decide⟩,
   ⟨machine [] 0 [5] [], _, _, rfl, rfl, _, rfl, rfl, _, rfl, rfl, rfl⟩⟩

/-- Each clause: canonical truth values, -1 as the second operand, a taken transfer at both ends of memory, 1 and 2. -/
theorem witness_ComparisonsAreCanonicalBooleans :
    (∃ s : State, s.wf ∧ 2 ≤ s.sp ∧ s.nos = truthWord False ∧ s.tos = truthWord True) ∧
    (∃ s : State, s.wf ∧ 2 ≤ s.sp ∧ s.nos = truthWord True ∧ s.tos = 0xFFFFFFFF) ∧
    (∃ s : State, s.wf ∧ 2 ≤ s.sp ∧ s.nos ≠ 0 ∧ TargetOk s s.tos ∧ s.tos = 0 ∧ s.rp < s.cfg.rsCap) ∧
    (∃ s : State, s.wf ∧ 2 ≤ s.sp ∧ s.nos ≠ 0 ∧ TargetOk s s.tos ∧ s.tos = 1023 ∧ s.rp < s.cfg.rsCap) ∧
    (∃ s : State, s.wf ∧ 2 ≤ s.sp ∧ s.nos = 1 ∧ s.tos = 2) :=
  ⟨⟨machine [] 0 [0, 0xFFFFFFFF] [], machine_wf (by decide) (by decide) (by decide), by decide⟩,
   ⟨machine [] 0 [0xFFFFFFFF, 0xFFFFFFFF] [], machine_wf (by decide) (by decide) (by decide), by decide⟩,
   ⟨machine [] 0 [0x80000000, 0] [], machine_wf (by decide) (by decide) (by decide), by decide⟩,
   ⟨machine [] 0 [1, 1023] [], machine_wf (by decide) (by decide) (by decide), by decide⟩,
   ⟨machine [] 0 [1, 2] [], machine_wf (by decide) (by decide) (by decide), by decide⟩⟩

/-- A `store` to the last cell, and a later state that meets the conditions on `u`. -/
theorem witness_StoreThenFetchGivesStoredWord :
    ∃ s t u : State, s.wf ∧ 2 ≤ s.sp ∧ TargetOk s s.tos ∧ exec .store s = .next t ∧
      u.wf ∧ u.cfg = s.cfg ∧ u.mem = t.mem ∧ 1 ≤ u.sp ∧ u.tos = s.tos :=
  ⟨machine [] 0 [7, 1023] [], _, machine [7] 1023 [1023] [], machine_wf (by decide) (by decide) (by decide),
   by decide, by decide, rfl, machine_wf (by decide) (by decide) (by decide), rfl, rfl, by decide, by decide⟩

/-- A `store` in the last but one cell writes over the last: `+`, a `lit` with no immediate, an illegal word. -/
theorem witness_StoredInstructionRunsNext : ∀ w ∈ ([0xF, 2, 0x20] : List Word),
    ∃ s : State, s.wf ∧ s.run = .running ∧ s.ip + 1 < s.cfg.memWords ∧
      s.mem.read s.ip = wordOfOp s.cfg.opcodeMap .store ∧ 2 ≤ s.sp ∧ s.tos.toInt = ((s.ip + 1 : Nat) : Int) ∧
      s.nos = w :=
  fun w _ => ⟨machine [0xE] 1022 [w, 1023] [], machine_wf (by simp) (by simp) (by simp), rfl, Nat.le_refl 1024,
    rfl, Nat.le_refl 2, rfl, rfl⟩

/-- A `store` over its own cell, and over the last cell, with later states that fetch there: as an opcode word, and as
the immediate of a `lit`. -/
theorem witness_StoreIsSeenByEveryLaterFetch :
    (∃ s : State, s.wf ∧ s.run = .running ∧ s.ip < s.cfg.memWords ∧
      s.mem.read s.ip = wordOfOp s.cfg.opcodeMap .store ∧ 2 ≤ s.sp ∧ TargetOk s s.tos ∧ s.tos.toInt.toNat = s.ip) ∧
    (∃ s t u v : State, s.wf ∧ s.run = .running ∧ s.ip < s.cfg.memWords ∧
      s.mem.read s.ip = wordOfOp s.cfg.opcodeMap .store ∧ 2 ≤ s.sp ∧ TargetOk s s.tos ∧ step s = .next t ∧
      (u.wf ∧ u.cfg = s.cfg ∧ u.run = .running ∧ u.mem.read 1023 = t.mem.read 1023 ∧ u.ip = s.tos.toInt.toNat) ∧
      (v.wf ∧ v.cfg = s.cfg ∧ v.run = .running ∧ v.mem.read 1023 = t.mem.read 1023 ∧ v.ip + 1 = s.tos.toInt.toNat ∧
        v.mem.read v.ip = wordOfOp v.cfg.opcodeMap .lit)) :=
  ⟨⟨machine [0xE] 0 [1, 0] [], machine_wf (by decide) (by decide) (by decide), by decide⟩,
   ⟨machine [0xE] 0 [7, 1023] [], _, machine [7] 1023 [] [], machine [2, 7] 1022 [] [],
    machine_wf (by decide) (by decide) (by decide), rfl, by decide, by decide, by decide, by decide, rfl,
    ⟨machine_wf (by decide) (by decide) (by decide), by decide⟩,
    ⟨machine_wf (by decide) (by decide) (by decide), by decide⟩⟩⟩

/-- A `call` and a taken `ccall` in the last but one cell with one free return cell, and a state to return from
whose return stack has other stale cells. -/
theorem witness_CallAndReturnBalance :
    (∃ s t u : State, s.wf ∧ 1 ≤ s.sp ∧ TargetOk s s.tos ∧ s.rp < s.cfg.rsCap ∧ s.ip + 1 < s.cfg.memWords ∧
      exec .call s = .next t ∧ u.wf ∧ u.cfg = s.cfg ∧ u.rp = t.rp ∧ u.rs.live = t.rs.live) ∧
    (∃ s t u : State, s.wf ∧ 2 ≤ s.sp ∧ s.nos ≠ 0 ∧ TargetOk s s.tos ∧ s.rp < s.cfg.rsCap ∧
      s.ip + 1 < s.cfg.memWords ∧ exec .ccall s = .next t ∧ u.wf ∧ u.cfg = s.cfg ∧ u.rs ≠ t.rs ∧ u.rp = t.rp ∧
      u.rs.live = t.rs.live) := by
  refine ⟨⟨machine [] 1022 [0] (List.replicate 15 0), _, machine [] 9 [] (List.replicate 15 0 ++ [1023]),
    machine_wf (by decide) (by decide) (by decide), by decide, by decide, by decide, by decide, rfl,
    machine_wf (by decide) (by decide) (by decide), rfl, by decide, by decide⟩,
   ⟨machine [] 1022 [2, 0] [], _, { machine [] 9 [] [] with rs := ⟨1023 :: List.replicate 15 9, 1⟩ },
    machine_wf (by decide) (by decide) (by decide), by decide, by decide, by decide, by decide, by decide, rfl,
    ?_, rfl, by decide, by decide, by decide⟩⟩
  constructor <;> decide

/-- A `call` at 0 of a callee at 2 that itself calls 1, where a `return` stands, and then returns at 3. -/
theorem witness_MatchingReturnRestoresReturnStack :
    ∃ s t u : State, s.wf ∧ s.run = .running ∧ s.ip + 1 < s.cfg.memWords ∧
      (s.fetchInstr = .ok .call ∨ s.fetchInstr = .ok .ccall) ∧ step s = .next t ∧ t.rp = s.rp + 1 ∧
      RunsAbove s.rp 2 t u ∧ u.run = .running ∧ u.fetchInstr = .ok .ret ∧ u.rp = s.rp + 1 :=
  ⟨machine [0xA, 0xC, 0xA, 0xC] 0 [1, 2] [], _, _, machine_wf (by decide) (by decide) (by decide), rfl, by decide,
   .inl rfl, rfl, rfl, ⟨_, rfl, by decide, _, rfl, by decide, rfl⟩, rfl, rfl, rfl⟩

/-- Each clause: a load of no words, and a step from a reset state, each followed by an inspection. -/
theorem witness_LoadOnlyOnceBeforeTheFirstStep :
    (∃ s t u : State, s.load [] = .next t ∧ afterMoves [.inspect] t = some u) ∧
    (∃ u : State, afterMoves [.step, .inspect] (State.resetWith defaultConfig none 0) = some u) :=
  ⟨⟨State.reset, _, _, rfl, rfl⟩, ⟨_, rfl⟩⟩

theorem witness_JumpsKeepReturnStack :
    (∃ t : State, exec .jmp (machine [] 4 [1023] [9]) = .next t) ∧
    (∃ t : State, exec .cjmp (machine [] 4 [0, 1024] [9]) = .next t) := ⟨⟨_, rfl⟩, ⟨_, rfl⟩⟩

theorem witness_PushThenPopRestores : ∃ s : State, s.wf ∧ 1 ≤ s.sp ∧ s.rp < s.cfg.rsCap :=
  ⟨machine [] 0 full (List.replicate 15 0), machine_wf (by decide) (by decide) (by decide), by decide⟩

/-- An image that just fits, one that does not, a state that is not the reset state. -/
theorem witness_LoadPlacesTheImage :
    [1, 1].length ≤ { defaultConfig with memWords := 2 }.memWords ∧
    { defaultConfig with memWords := 2 }.memWords < [1, 1, 1].length ∧
    machine [] 1 [] [] ≠
      State.resetWith (machine [] 1 [] []).cfg (machine [] 1 [] []).bridge (machine [] 1 [] []).context := by decide

/-- Reset, load and two steps. -/
theorem witness_HostMovesKeepWellFormed :
    ∃ s t : State, s.wf ∧ s.haltedAtStop ∧
      [Transaction.reset (some 1) 2, .load [2, 5, 1], .step, .inspect].foldlM (m := Option)
        (fun u m => match u.transact m with | .next v => some v | _ => none) s = some t :=
  ⟨machine [0] 0 [] [], _, machine_wf (by decide) (by decide) (by decide), fun h => absurd h (by decide), rfl⟩

theorem witness_LitPushesItsImmediate :
    (∃ s : State, s.wf ∧ s.ip + 1 < s.cfg.memWords ∧ s.sp < s.cfg.dsCap) ∧
    (∃ s : State, s.wf ∧ s.ip + 1 < s.cfg.memWords ∧ s.sp = s.cfg.dsCap) ∧
    (∃ s : State, s.wf ∧ s.cfg.memWords ≤ s.ip + 1) :=
  ⟨⟨machine [] 1022 (List.replicate 15 0) [], machine_wf (by decide) (by decide) (by decide), by decide⟩,
   ⟨machine [] 1022 full [], machine_wf (by decide) (by decide) (by decide), by decide⟩,
   ⟨machine [] 1023 [] [], machine_wf (by decide) (by decide) (by decide), by decide⟩⟩

/-- Depths 0, 1, 2, 15 and 16: the clauses of `dup`, `drop`, `swap` and of every two-operand instruction. -/
theorem witness_data_depths :
    (∃ s : State, s.wf ∧ s.sp = 0) ∧ (∃ s : State, s.wf ∧ 1 ≤ s.sp ∧ s.sp < 2) ∧ (∃ s : State, s.wf ∧ s.sp = 2) ∧
    (∃ s : State, s.wf ∧ 1 ≤ s.sp ∧ s.sp + 1 = s.cfg.dsCap) ∧ (∃ s : State, s.wf ∧ s.sp = s.cfg.dsCap) :=
  ⟨⟨machine [] 0 [] [], machine_wf (by decide) (by decide) (by decide), by decide⟩,
   ⟨machine [] 0 [1] [], machine_wf (by decide) (by decide) (by decide), by decide⟩,
   ⟨machine [] 0 [1, 2] [], machine_wf (by decide) (by decide) (by decide), by decide⟩,
   ⟨machine [] 0 (List.replicate 15 0) [], machine_wf (by decide) (by decide) (by decide), by decide⟩,
   ⟨machine [] 0 full [], machine_wf (by decide) (by decide) (by decide), by decide⟩⟩

/-- The clauses of `push` and `pop`. -/
theorem witness_PushAndPop :
    (∃ s : State, s.wf ∧ 1 ≤ s.sp ∧ s.rp + 1 = s.cfg.rsCap) ∧ (∃ s : State, s.wf ∧ 1 ≤ s.sp ∧ s.rp = s.cfg.rsCap) ∧
    (∃ s : State, s.wf ∧ 1 ≤ s.rp ∧ s.sp + 1 = s.cfg.dsCap) ∧ (∃ s : State, s.wf ∧ 1 ≤ s.rp ∧ s.sp = s.cfg.dsCap) ∧
    (∃ s : State, s.wf ∧ s.rp = 0) :=
  ⟨⟨machine [] 0 [1] (List.replicate 15 0), machine_wf (by decide) (by decide) (by decide), by decide⟩,
   ⟨machine [] 0 [1] full, machine_wf (by decide) (by decide) (by decide), by decide⟩,
   ⟨machine [] 0 (List.replicate 15 0) [1], machine_wf (by decide) (by decide) (by decide), by decide⟩,
   ⟨machine [] 0 full [1], machine_wf (by decide) (by decide) (by decide), by decide⟩,
   ⟨machine [] 0 [] [], machine_wf (by decide) (by decide) (by decide), by decide⟩⟩

/-- The clauses of `jmp`, `call`, `fetch` (one operand): addresses 0, 1023, 1024 and -1; a return stack with one
free cell and a full one. -/
theorem witness_one_address :
    (∃ s : State, s.wf ∧ 1 ≤ s.sp ∧ TargetOk s s.tos ∧ s.tos = 0 ∧ s.rp + 1 = s.cfg.rsCap) ∧
    (∃ s : State, s.wf ∧ 1 ≤ s.sp ∧ TargetOk s s.tos ∧ s.tos = 1023 ∧ s.rp = s.cfg.rsCap) ∧
    (∃ s : State, s.wf ∧ 1 ≤ s.sp ∧ ¬TargetOk s s.tos ∧ s.tos = 1024) ∧
    (∃ s : State, s.wf ∧ 1 ≤ s.sp ∧ ¬TargetOk s s.tos ∧ s.tos = 0xFFFFFFFF) :=
  ⟨⟨machine [] 0 [0] (List.replicate 15 0), machine_wf (by decide) (by decide) (by decide), by decide⟩,
   ⟨machine [] 0 [1023] full, machine_wf (by decide) (by decide) (by decide), by decide⟩,
   ⟨machine [] 0 [1024] [], machine_wf (by decide) (by decide) (by decide), by decide⟩,
   ⟨machine [] 0 [0xFFFFFFFF] [], machine_wf (by decide) (by decide) (by decide), by decide⟩⟩

/-- The clauses of `cjmp`, `ccall`, `store` (two operands): the same addresses with a condition of only bit 31,
and a condition 0. -/
theorem witness_two_operand_address :
    (∃ s : State, s.wf ∧ 2 ≤ s.sp ∧ s.nos ≠ 0 ∧ TargetOk s s.tos ∧ s.tos = 0 ∧ s.rp + 1 = s.cfg.rsCap) ∧
    (∃ s : State, s.wf ∧ 2 ≤ s.sp ∧ s.nos ≠ 0 ∧ TargetOk s s.tos ∧ s.tos = 1023 ∧ s.rp = s.cfg.rsCap) ∧
    (∃ s : State, s.wf ∧ 2 ≤ s.sp ∧ s.nos ≠ 0 ∧ ¬TargetOk s s.tos ∧ s.tos = 1024) ∧
    (∃ s : State, s.wf ∧ 2 ≤ s.sp ∧ s.nos ≠ 0 ∧ ¬TargetOk s s.tos ∧ s.tos = 0xFFFFFFFF) ∧
    (∃ s : State, s.wf ∧ 2 ≤ s.sp ∧ s.nos = 0) :=
  ⟨⟨machine [] 0 [0x80000000, 0] (List.replicate 15 0), machine_wf (by decide) (by decide) (by decide), by decide⟩,
   ⟨machine [] 0 [0x80000000, 1023] full, machine_wf (by decide) (by decide) (by decide), by decide⟩,
   ⟨machine [] 0 [0x80000000, 1024] [], machine_wf (by decide) (by decide) (by decide), by decide⟩,
   ⟨machine [] 0 [1, 0xFFFFFFFF] [], machine_wf (by decide) (by decide) (by decide), by decide⟩,
   ⟨machine [] 0 [0, 5000] [], machine_wf (by decide) (by decide) (by decide), by decide⟩⟩

/-- The clauses of `return`. -/
theorem witness_ReturnPopsIntoIp :
    (1 ≤ (machine [] 0 [] [0]).rp ∧ TargetOk (machine [] 0 [] [0]) ((machine [] 0 [] [0]).rs.peek 0)) ∧
    (1 ≤ (machine [] 0 [] [1023]).rp ∧ TargetOk (machine [] 0 [] [1023]) ((machine [] 0 [] [1023]).rs.peek 0)) ∧
    (machine [] 0 [] []).rp = 0 ∧
    (1 ≤ (machine [] 0 [] [1024]).rp ∧ ¬TargetOk (machine [] 0 [] [1024]) ((machine [] 0 [] [1024]).rs.peek 0)) ∧
    (1 ≤ (machine [] 0 [] [0xFFFFFFFF]).rp ∧
      ¬TargetOk (machine [] 0 [] [0xFFFFFFFF]) ((machine [] 0 [] [0xFFFFFFFF]).rs.peek 0)) := by decide

/-- The clauses of `/%`: INT_MIN by -1, and a zero divisor. -/
theorem witness_DivmodTruncates :
    (∃ s : State, s.wf ∧ 2 ≤ s.sp ∧ s.tos ≠ 0 ∧ s.nos = 0x80000000 ∧ s.tos = 0xFFFFFFFF) ∧
    (∃ s : State, s.wf ∧ 2 ≤ s.sp ∧ s.tos = 0) :=
  ⟨⟨machine [] 0 [0x80000000, 0xFFFFFFFF] [], machine_wf (by decide) (by decide) (by decide), by decide⟩,
   ⟨machine [] 0 [0x80000000, 0] [], machine_wf (by decide) (by decide) (by decide), by decide⟩⟩

/-- The clauses of `shift`: counts 32 and INT_MAX; 0, -32 and INT_MIN. -/
theorem witness_ShiftIsMathematical :
    (machine [] 0 [5, 1] []).wf ∧ 2 ≤ (machine [] 0 [5, 1] []).sp ∧
    0 < (32 : Word).toInt ∧ 0 < (0x7FFFFFFF : Word).toInt ∧
    (0 : Word).toInt ≤ 0 ∧ (0xFFFFFFE0 : Word).toInt ≤ 0 ∧ (0x80000000 : Word).toInt ≤ 0 :=
  ⟨machine_wf (by decide) (by decide) (by decide), by decide, by decide, by decide, by decide, by decide, by decide⟩

/-- The clauses of the syscalls: exactly enough words, and one too few. -/
theorem witness_syscalls :
    1 ≤ (machine [] 0 [7] []).sp ∧ 2 ≤ (machine [] 0 [1, 7] []).sp ∧ 3 ≤ (machine [] 0 [1, 2, 7] []).sp ∧
    4 ≤ (machine [] 0 [1, 2, 3, 7] []).sp ∧ 5 ≤ (machine [] 0 [1, 2, 3, 4, 7] []).sp ∧
    (machine [] 0 [] []).sp < 1 ∧ (machine [] 0 [7] []).sp < 2 ∧ (machine [] 0 [1, 7] []).sp < 3 ∧
    (machine [] 0 [1, 2, 7] []).sp < 4 ∧ (machine [] 0 [1, 2, 3, 7] []).sp < 5 := by decide

end Sys2Proof.Tests
end

/-! # 20_memory.md: who reads and writes memory (R56), and what a stored word executes as (R63) -/

/-! ## What is fetched from the words at `ip` (R86) -/

section
namespace Sys2Proof.Machine

/-- Outside memory there is nothing to decode (R86, D6). -/
theorem fetchInstr_outside {s : State} (h : s.cfg.memWords ≤ s.ip) :
    s.fetchInstr = .error (.memoryOutOfRange .ifetch (zext32 s.ip)) := by
  rw [State.fetchInstr, checkAddr_of_bad (by omega), wrap32_natCast]
  rfl

/-- Besides the parameters and `ip`, a fetch depends on the words at `ip` and `ip + 1` alone (R56). -/
theorem fetchInstr_congr_words {s : State} {m : Memory} (h0 : m.read s.ip = s.mem.read s.ip)
    (h1 : m.read (s.ip + 1) = s.mem.read (s.ip + 1)) :
    State.fetchInstr { s with mem := m } = s.fetchInstr := by
  have hwords : State.wordsAt { s with mem := m } s.ip = s.wordsAt s.ip := by
    simp only [State.wordsAt, State.memRead, h0, h1]
  rcases Nat.lt_or_ge s.ip s.cfg.memWords with hin | hout
  · rw [fetchInstr_inside (s := { s with mem := m }) hin, fetchInstr_inside hin,
      State.decodeAt, State.decodeAt, hwords]
  · rw [fetchInstr_outside (s := { s with mem := m }) hout, fetchInstr_outside hout]

/-- The opcode word of a one-word instruction at `ip` is fetched as that instruction (R86, R87). -/
theorem fetchInstr_of_opcode {s : State} {i : Instr} (hmap : OpcodeMapWf s.cfg.opcodeMap)
    (hip : s.ip < s.cfg.memWords) (hi : i.op ≠ .lit)
    (hread : s.mem.read s.ip = wordOfOp s.cfg.opcodeMap i.op) : s.fetchInstr = .ok i := by
  obtain ⟨rest, hwords⟩ := wordsAt_cons s s.ip
  refine fetchInstr_of_decode (rest := rest) hip ?_
  simp only [hwords, hread, decode, opOfWord_wordOfOp hmap, oneWord_of_op hi]

/-- The opcode word of `lit` at `ip` is fetched with the word after it as the immediate (R83, R110). -/
theorem fetchInstr_of_lit {s : State} (hmap : OpcodeMapWf s.cfg.opcodeMap) (hip : s.ip + 1 < s.cfg.memWords)
    (hread : s.mem.read s.ip = wordOfOp s.cfg.opcodeMap .lit) :
    s.fetchInstr = .ok (.lit (s.mem.read (s.ip + 1))) := by
  refine fetchInstr_of_decode (rest := []) (by omega) ?_
  simp only [State.wordsAt, if_pos hip, State.memRead, hread, decode, opOfWord_wordOfOp hmap, Op.oneWord, decodeLit]

/-- Decoding that has a word to look at never reports that there is none. -/
theorem decode_cons_ne_noWord (map : List Op) (w : Word) (ws : List Word) :
    decode map (w :: ws) ≠ .error .noWord := by
  rw [decode]
  cases opOfWord map w with
  | none => simp
  | some o =>
    cases ho : o.oneWord with
    | some i => simp [ho]
    | none => cases ws <;> simp [ho, decodeLit]

/-- The word memory holds at `ip` is the one a Running machine executes (R86). -/
theorem runsWord_read {s : State} (hrun : s.run = .running) (hip : s.ip < s.cfg.memWords) :
    RunsWord s (s.mem.read s.ip) := by
  obtain ⟨rest, hwords⟩ := wordsAt_cons s s.ip
  have hstep := step_running hrun
  rw [fetchInstr_inside hip, State.decodeAt, hwords] at hstep
  have hne := decode_cons_ne_noWord s.cfg.opcodeMap (s.mem.read s.ip) rest
  rw [RunsWord, hwords, List.tail_cons]
  generalize decode s.cfg.opcodeMap (s.mem.read s.ip :: rest) = d at hstep hne
  match d with
  | .ok (i, _) => exact hstep
  | .error (.illegalOpcode v) => exact hstep
  | .error .missingImmediate => exact hstep
  | .error .noWord => exact hne rfl

end Sys2Proof.Machine
end

/-! ## What `store` does (R151) -/

section
namespace Sys2Proof.Machine

/-- With two operands on the stack, `store` pops the address, then the value, and checks the address. -/
theorem execStore_of_two {s : State} (h : 2 ≤ s.ds.count) :
    execStore s = s.commit (s.checkAddr (s32 s.tos) .store >>= fun a => .ok { s with
      mem := s.mem.write a s.nos, ds := ⟨s.ds.cells, s.ds.count - 2⟩, ip := s.ip + 1 }) := by
  simp (disch := first | omega | (dsimp only; omega)) only [execStore, dsPop_of_pos, work_ok_bind, peek_count_sub]
  rfl

/-- `store` with its two operands and a valid address. -/
theorem exec_store_of_ok {s : State} (hsp : 2 ≤ s.sp) (ha : TargetOk s s.tos) :
    exec .store s = .next { s with
      mem := s.mem.write s.tos.toInt.toNat s.nos, ds := ⟨s.ds.cells, s.sp - 2⟩, ip := s.ip + 1 } := by
  have hcheck : s.checkAddr (s32 s.tos) .store = .ok s.tos.toInt.toNat := checkAddr_of_ok ha _
  simp only [exec, execStore_of_two hsp, hcheck, work_ok_bind, commit_ok]

/-- `store` with fewer than two operands. -/
theorem exec_store_of_few {s : State} (hsp : s.sp < 2) :
    exec .store s = .next (s.takeFault (.stackUnderflow .data .pop)) := by
  have hcount : s.ds.count < 2 := hsp
  rcases Nat.eq_zero_or_pos s.ds.count with hempty | hone
  · rw [exec, execStore, dsPop_of_empty hempty, work_error_bind, commit_error]
  · simp (disch := first | omega | (dsimp only; omega)) only [exec, execStore, dsPop_of_pos, dsPop_of_empty,
      work_ok_bind, work_error_bind, commit_error]

/-- `store` with its two operands and an address outside memory. -/
theorem exec_store_of_bad {s : State} (hsp : 2 ≤ s.sp) (ha : ¬TargetOk s s.tos) :
    exec .store s = .next (s.takeFault (.memoryOutOfRange .store s.tos)) := by
  have hcheck : s.checkAddr (s32 s.tos) .store = .error (.memoryOutOfRange .store s.tos) := by
    have hbad : ¬s.addrOk (s32 s.tos) := ha
    rw [checkAddr_of_bad hbad, wrap32_s32]
  simp only [exec, execStore_of_two hsp, hcheck, work_error_bind, commit_error]

/-- What a `store` does and to which cell does not depend on what memory holds (R56). -/
theorem exec_store_over_other_memory {s t : State} (m : Memory) (h : exec .store s = .next t) :
    ∃ n, exec .store { s with mem := m } = .next { t with mem := n } ∧
      (2 ≤ s.sp ∧ TargetOk s s.tos →
        t.mem = s.mem.write s.tos.toInt.toNat s.nos ∧ n = m.write s.tos.toInt.toNat s.nos) ∧
      (¬(2 ≤ s.sp ∧ TargetOk s s.tos) → t.mem = s.mem ∧ n = m) := by
  by_cases hsp : 2 ≤ s.sp
  · by_cases ha : TargetOk s s.tos
    · rw [exec_store_of_ok hsp ha] at h
      cases h
      exact ⟨_, exec_store_of_ok (s := { s with mem := m }) hsp ha,
        fun _ => ⟨rfl, rfl⟩, fun hn => absurd ⟨hsp, ha⟩ hn⟩
    · rw [exec_store_of_bad hsp ha] at h
      cases h
      exact ⟨m, exec_store_of_bad (s := { s with mem := m }) hsp ha,
        fun hp => absurd hp.2 ha, fun _ => ⟨rfl, rfl⟩⟩
  · have hfew : s.sp < 2 := by omega
    rw [exec_store_of_few hfew] at h
    cases h
    exact ⟨m, exec_store_of_few (s := { s with mem := m }) hfew,
      fun hp => absurd hp.1 hsp, fun _ => ⟨rfl, rfl⟩⟩

end Sys2Proof.Machine
end

/-! ## Other instructions and the host (R56, R262) -/

section
namespace Sys2Proof.Machine

/-- An instruction other than `store` leaves memory as it was. -/
theorem exec_mem_of_ne_store {i : Instr} {s t : State} (hi : i ≠ .store) (h : exec i s = .next t) :
    t.mem = s.mem := by
  rcases exec_inv h with hc | ⟨c, -, rfl⟩
  · exact hc.mem.resolve_right fun hstore => hi hstore.1
  · rfl

/-- The second state is the first with the memory `m`. -/
def WithMem (m : Memory) (s t : State) : Prop := t = { s with mem := m }

/-- The primitives on stacks and `ip` act the same over any memory. -/
theorem withMem_kept (m : Memory) : KeptByPrimitives (WithMem m) where
  cfg := by rintro s _ rfl; rfl
  ip := by rintro s _ rfl; rfl
  dsPop := by
    rintro s _ rfl
    simp only [State.dsPop]
    split
    · exact rfl
    · exact ⟨rfl, rfl⟩
  rsPop := by
    rintro s _ rfl
    simp only [State.rsPop]
    split
    · exact rfl
    · exact ⟨rfl, rfl⟩
  dsPush := by
    rintro s _ rfl v
    simp only [State.dsPush]
    split <;> exact rfl
  rsPush := by
    rintro s _ rfl v
    simp only [State.rsPush]
    split <;> exact rfl
  setIp := by rintro s _ rfl a; rfl
  emit := by rintro s _ rfl n a b c d; rfl
  halt := by rintro s _ rfl; rfl
  takeFault := by rintro s _ rfl c; rfl

/-- An instruction other than `store` and `fetch` acts the same over any other memory. -/
theorem exec_withMem {i : Instr} {s t : State} (m : Memory) (hs : i ≠ .store) (hf : i ≠ .fetch)
    (h : exec i s = .next t) : exec i { s with mem := m } = .next { t with mem := m } := by
  obtain ⟨u, v, hu, hv, rfl⟩ :=
    (withMem_kept m).exec (i := i) (fun hi => (hi.elim hf hs).elim) (rfl : WithMem m s { s with mem := m })
  rw [h] at hu
  cases hu
  exact hv

/-- A load puts its image from address 0 on and leaves every other cell (R262). -/
theorem load_read {s t : State} {image : List Word} (h : s.load image = .next t) (a : Nat) :
    t.mem.read a = if a < image.length then image.getD a 0 else s.mem.read a := by
  obtain ⟨hreset, -, rfl⟩ := load_inv h
  have hwf : s.mem.wf := by rw [hreset]; exact ⟨.nil, by simp [State.resetWith]⟩
  simp [Memory.read_writeWords image hwf]

/-- Settles O17: the clauses one by one, `exec_store_over_other_memory` for `store` and `withMem_kept` for the
instructions that do not touch memory. -/
theorem onlyStoreWritesMemory : Obligations.OnlyStoreWritesMemory := by
  refine ⟨fun _ _ _ => exec_mem_of_ne_store, fun _ _ _ m => exec_withMem m, fun _ _ m => exec_store_over_other_memory m,
    fun _ _ => fetchInstr_congr_words, ?reset, fun _ _ _ => load_read, fun _ => rfl⟩
  case reset =>
    rintro s t b x h a
    cases h
    rfl

end Sys2Proof.Machine
end

/-! ## A stored word executes (R63) -/

section
namespace Sys2Proof.Machine

/-- Settles O26: `store` writes the one memory that instruction fetch reads, so a later fetch of the cell sees the word
(`runsWord_read`, `fetchInstr_of_lit`). -/
theorem storeIsSeenByEveryLaterFetch : Obligations.StoreIsSeenByEveryLaterFetch := by
  intro s hwf hrun hip hread hsp ha
  obtain ⟨-, -, -, hmap⟩ := hwf.cfgOk
  have hcell : (s.mem.write s.tos.toInt.toNat s.nos).read s.tos.toInt.toNat = s.nos :=
    Memory.read_write_same hwf.memOk _ _
  have hin : s.tos.toInt.toNat < s.cfg.memWords := by omega
  refine ⟨s.mem.write s.tos.toInt.toNat s.nos, ?step, hcell, ?next, fun u huwf hucfg hurun hucell => ?later⟩
  case step =>
    rw [step_running hrun, fetchInstr_of_opcode (i := .store) hmap hip (by decide) hread]
    exact exec_store_of_ok hsp ha
  case next =>
    intro hnext
    rw [hnext] at hcell hin ⊢
    have := runsWord_read (s := { s with
      mem := s.mem.write (s.ip + 1) s.nos, ds := ⟨s.ds.cells, s.sp - 2⟩, ip := s.ip + 1 }) hrun hin
    rwa [hcell] at this
  case later =>
    rw [hcell] at hucell
    constructor
    · intro huip
      rw [← hucell, ← huip]
      exact runsWord_read hurun (by rw [hucfg]; omega)
    · intro huip hulit
      rw [step_running hurun, fetchInstr_of_lit (hucfg ▸ hmap) (by rw [hucfg]; omega) hulit, huip, hucell]

end Sys2Proof.Machine
end

/-! # 30_encoding.md: which words are opcodes (R85) -/

/-! ## When a step takes DecodeFault (R85, R86) -/

section
namespace Sys2Proof.Machine

/-- Only an opcode word that selects no mnemonic is illegal, and the error names it (R85). -/
theorem decode_illegalOpcode_iff {map : List Op} {w v : Word} {ws : List Word} :
    decode map (w :: ws) = .error (.illegalOpcode v) ↔ opOfWord map w = none ∧ w = v := by
  rw [decode]
  cases opOfWord map w with
  | none => simp
  | some o =>
    cases ho : o.oneWord with
    | some i => simp [ho]
    | none => cases ws <;> simp [ho, decodeLit]

/-- The illegal opcode is the one decode error that becomes DecodeFault (R86). -/
theorem decodeAt_decodeFault_iff {s : State} {a : Nat} {v : Word} :
    s.decodeAt a = .error (.decodeFault v) ↔
      decode s.cfg.opcodeMap (s.wordsAt a) = .error (.illegalOpcode v) := by
  rw [State.decodeAt]
  generalize decode s.cfg.opcodeMap (s.wordsAt a) = d
  match d with
  | .ok (i, _) => simp
  | .error (.illegalOpcode w) => simp
  | .error .missingImmediate => simp
  | .error .noWord => simp

/-- A fetch raises DecodeFault exactly when the word at `ip` selects no mnemonic (R85, R86). -/
theorem fetchInstr_decodeFault_iff {s : State} (hip : s.ip < s.cfg.memWords) {v : Word} :
    s.fetchInstr = .error (.decodeFault v) ↔
      opOfWord s.cfg.opcodeMap (s.mem.read s.ip) = none ∧ s.mem.read s.ip = v := by
  obtain ⟨rest, hwords⟩ := wordsAt_cons s s.ip
  rw [fetchInstr_inside hip, decodeAt_decodeFault_iff, hwords, decode_illegalOpcode_iff]

/-- Fault entry records its cause, so different causes lead to different states (R226). -/
theorem takeFault_inj {s : State} {c d : FaultCause} (h : s.takeFault c = s.takeFault d) : c = d := by
  have hrecord := congrArg State.fault h
  simpa using hrecord

/-- No instruction of a machine that is not Faulted takes DecodeFault by its own rule (R221). -/
theorem exec_ne_decodeFault {s : State} (hrun : s.run ≠ .faulted) (i : Instr) (v : Word) :
    exec i s ≠ .next (s.takeFault (.decodeFault v)) := by
  intro h
  rcases exec_inv h with hcommit | ⟨c, hown, hc⟩
  · have hfaulted := hcommit.run
    rw [State.takeFault_run] at hfaulted
    split at hfaulted
    · cases hfaulted
    · exact hrun hfaulted.symm
  · exact hown v (takeFault_inj hc).symm

/-- A Running machine takes DecodeFault exactly when its fetch raises it. -/
theorem step_decodeFault_iff {s : State} (hrun : s.run = .running) {v : Word} :
    step s = .next (s.takeFault (.decodeFault v)) ↔ s.fetchInstr = .error (.decodeFault v) := by
  rw [step_running hrun]
  cases s.fetchInstr with
  | ok i => simp [exec_ne_decodeFault (s := s) (by simp [hrun]) i v]
  | error c =>
    simp only [Host.Outcome.next.injEq, Except.error.injEq]
    exact ⟨takeFault_inj, congrArg s.takeFault⟩

end Sys2Proof.Machine
end

/-! ## Words that are pushed: the immediate of `lit` (R110) and the data of `fetch` (R150) -/

section
namespace Sys2Proof.Machine

/-- `lit` with its immediate inside memory and room on the data stack. -/
theorem exec_lit_of_room {s : State} (hip : s.ip + 1 < s.cfg.memWords) (hroom : s.sp ≠ s.cfg.dsCap) (imm : Word) :
    exec (.lit imm) s = .next { s with ds := ⟨s.ds.cells.set s.sp imm, s.sp + 1⟩, ip := s.ip + 2 } := by
  rw [exec, execLit, checkAddr_of_ok (by omega), work_ok_bind, dsPush_of_room hroom]
  rfl

/-- `fetch` with its operand and a valid address: the word read takes the place of the address. -/
theorem exec_fetch_of_ok {s : State} (hsp : 1 ≤ s.sp) (hcap : s.sp ≤ s.cfg.dsCap) (ha : TargetOk s s.tos) :
    exec .fetch s = .next { s with
      ds := ⟨s.ds.cells.set (s.sp - 1) (s.mem.read s.tos.toInt.toNat), s.sp⟩, ip := s.ip + 1 } := by
  have hcheck : State.checkAddr { s with ds := ⟨s.ds.cells, s.ds.count - 1⟩ } (s32 (s.ds.peek 0)) .fetch =
      .ok s.tos.toInt.toNat := checkAddr_of_ok ha _
  have hroom : s.sp - 1 ≠ s.cfg.dsCap := by omega
  simp only [exec, execFetch, dsPop_of_pos hsp, work_ok_bind, hcheck]
  rw [dsPush_of_room hroom, work_ok_bind, Nat.sub_add_cancel hsp]
  rfl

/-- `lit` leaves its immediate on top, whatever word it is. -/
theorem exec_lit_tos {s : State} (hwf : s.wf) (hip : s.ip + 1 < s.cfg.memWords) (hroom : s.sp < s.cfg.dsCap)
    (imm : Word) : ∃ t, exec (.lit imm) s = .next t ∧ t.run = s.run ∧ t.tos = imm :=
  ⟨_, exec_lit_of_room hip (by omega) imm, rfl, peek_set (by rw [hwf.dsCells]; exact hroom) imm⟩

/-- `fetch` leaves the word at its address on top, whatever word it is. -/
theorem exec_fetch_tos {s : State} (hwf : s.wf) (hsp : 1 ≤ s.sp) (ha : TargetOk s s.tos) :
    ∃ t, exec .fetch s = .next t ∧ t.run = s.run ∧ t.tos = s.mem.read s.tos.toInt.toNat := by
  have hcap : s.sp ≤ s.cfg.dsCap := hwf.dsCount
  refine ⟨_, exec_fetch_of_ok hsp hcap ha, rfl, ?_⟩
  have htop := peek_set (cells := s.ds.cells) (n := s.sp - 1) (by rw [hwf.dsCells]; omega)
    (s.mem.read s.tos.toInt.toNat)
  rwa [Nat.sub_add_cancel hsp] at htop

/-- Settles O5: the step faults exactly where `opOfWord` selects nothing (`step_decodeFault_iff`,
`fetchInstr_decodeFault_iff`); `lit` and `fetch` push a word without decoding it. -/
theorem illegalWordsFaultOnlyAsOpcodes : Obligations.IllegalWordsFaultOnlyAsOpcodes := by
  intro s hwf hrun hip
  obtain ⟨-, -, -, hmap⟩ := hwf.cfgOk
  refine ⟨fun w hread hw => ?illegal, fun hw v hstep => ?legal, fun w w' o ho ho' => ?oneEach,
    fun w => opOfWord_of_le hmap, fun v hnext hroom hlit hread => ?immediate, fun v hsp ha hfetch hread => ?data⟩
  case illegal =>
    rw [step_decodeFault_iff hrun, fetchInstr_decodeFault_iff hip, hread]
    exact ⟨opOfWord_of_gt hw, rfl⟩
  case legal =>
    rw [step_decodeFault_iff hrun, fetchInstr_decodeFault_iff hip] at hstep
    obtain ⟨o, ho⟩ := opOfWord_of_le hmap hw
    rw [ho] at hstep
    cases hstep.1
  case oneEach => rw [← wordOfOp_of_opOfWord hmap ho, wordOfOp_of_opOfWord hmap ho']
  case immediate =>
    rw [step_running hrun, fetchInstr_of_lit hmap hnext hlit, hread, ← hrun]
    exact exec_lit_tos hwf hnext hroom v
  case data =>
    rw [step_running hrun, fetchInstr_of_opcode (i := .fetch) hmap hip (by decide) hfetch, ← hread, ← hrun]
    exact exec_fetch_tos hwf hsp ha

end Sys2Proof.Machine
end

/-! # 41_stack.md: the depth law (R116) -/

/-! ## Table M on the stack family, where it gives no fault (R228) -/

section
namespace Sys2Proof.Machine

@[simp] theorem needsData_eq_none {s : State} {n : Nat} : s.needsData n = none ↔ n ≤ s.sp := by
  simp [State.needsData]

@[simp] theorem needsReturn_eq_none {s : State} {n : Nat} : s.needsReturn n = none ↔ n ≤ s.rp := by
  simp [State.needsReturn]

@[simp] theorem fullData_eq_none {s : State} : s.fullData = none ↔ s.sp ≠ s.cfg.dsCap := by
  simp [State.fullData]

@[simp] theorem fullReturn_eq_none {s : State} : s.fullReturn = none ↔ s.rp ≠ s.cfg.rsCap := by
  simp [State.fullReturn]

theorem faultTable_lit_eq_none {s : State} {imm : Word} :
    s.faultTable (.lit imm) = none ↔ s.ip + 1 ≠ s.cfg.memWords ∧ s.sp ≠ s.cfg.dsCap := by
  simp [State.faultTable]

theorem faultTable_dup_eq_none {s : State} :
    s.faultTable .dup = none ↔ 1 ≤ s.sp ∧ s.sp ≠ s.cfg.dsCap := by
  simp [State.faultTable]

theorem faultTable_push_eq_none {s : State} :
    s.faultTable .push = none ↔ 1 ≤ s.sp ∧ s.rp ≠ s.cfg.rsCap := by
  simp [State.faultTable]

theorem faultTable_pop_eq_none {s : State} :
    s.faultTable .pop = none ↔ 1 ≤ s.rp ∧ s.sp ≠ s.cfg.dsCap := by
  simp [State.faultTable]

end Sys2Proof.Machine
end

/-! ## What `dup`, `drop`, `swap`, `push`, `pop` do with their operands and room (R111 to R115) -/

section
namespace Sys2Proof.Machine

/-- `dup` pops the top and pushes it twice, so its first push puts back what the cell holds. -/
theorem exec_dup_of_room {s : State} (hsp : 1 ≤ s.sp) (hroom : s.sp < s.cfg.dsCap) :
    exec .dup s = .next { s with ds := ⟨s.ds.cells.set s.sp s.tos, s.sp + 1⟩, ip := s.ip + 1 } := by
  have hself : s.ds.cells.set (s.sp - 1) (s.ds.peek 0) = s.ds.cells := set_getD_self rfl
  have hfirst : s.sp - 1 ≠ s.cfg.dsCap := by omega
  have hsecond : s.sp ≠ s.cfg.dsCap := by omega
  simp only [exec, execDup, dsPop_of_pos hsp, work_ok_bind]
  rw [dsPush_of_room hfirst, work_ok_bind, Nat.sub_add_cancel hsp, hself, dsPush_of_room hsecond]
  rfl

theorem exec_drop_of_one {s : State} (hsp : 1 ≤ s.sp) :
    exec .drop s = .next { s with ds := ⟨s.ds.cells, s.sp - 1⟩, ip := s.ip + 1 } := by
  rw [exec, execDrop, dsPop_of_pos hsp]
  rfl

theorem exec_swap_of_two {s : State} (hsp : 2 ≤ s.sp) (hcap : s.sp ≤ s.cfg.dsCap) :
    exec .swap s =
      .next { s with ds := ⟨(s.ds.cells.set (s.sp - 2) s.tos).set (s.sp - 1) s.nos, s.sp⟩, ip := s.ip + 1 } := by
  dsimp only [State.sp] at hsp hcap
  have htwo : s.ds.count - 1 - 1 = s.ds.count - 2 := by omega
  have hone : s.ds.count - 2 + 1 = s.ds.count - 1 := by omega
  have hback : s.ds.count - 1 + 1 = s.ds.count := by omega
  simp (disch := first | omega | (dsimp only; omega)) only [exec, execSwap, dsPop_of_pos, dsPush_of_room, work_ok_bind,
    peek_count_sub, htwo, hone, hback]
  rfl

theorem exec_push_of_room {s : State} (hsp : 1 ≤ s.sp) (hroom : s.rp ≠ s.cfg.rsCap) :
    exec .push s = .next { s with
      ds := ⟨s.ds.cells, s.sp - 1⟩, rs := ⟨s.rs.cells.set s.rp s.tos, s.rp + 1⟩, ip := s.ip + 1 } := by
  simp (disch := exact hroom) only [exec, execPush, dsPop_of_pos hsp, work_ok_bind, rsPush_of_room]
  rfl

theorem exec_pop_of_room {s : State} (hrp : 1 ≤ s.rp) (hroom : s.sp ≠ s.cfg.dsCap) :
    exec .pop s = .next { s with
      rs := ⟨s.rs.cells, s.rp - 1⟩, ds := ⟨s.ds.cells.set s.sp (s.rs.peek 0), s.sp + 1⟩, ip := s.ip + 1 } := by
  simp (disch := exact hroom) only [exec, execPop, rsPop_of_pos hrp, work_ok_bind, dsPush_of_room]
  rfl

end Sys2Proof.Machine
end

/-! ## Depths along a sequence of `dup`, `drop`, `swap` (R116) -/

section
namespace Sys2Proof.Machine

/-- The data depth moved by `d`, and the return stack kept. -/
def DepthMoved (d : Int) (s t : State) : Prop := (t.sp : Int) = s.sp + d ∧ t.rs = s.rs

theorem DepthMoved.refl (s : State) : DepthMoved 0 s s := ⟨by simp, rfl⟩

theorem DepthMoved.trans {d e : Int} {s t u : State} (h : DepthMoved d s t) (k : DepthMoved e t u) :
    DepthMoved (d + e) s u :=
  ⟨by rw [k.1, h.1, Int.add_assoc], k.2.trans h.2⟩

theorem DepthMoved.dsPop {d : Int} {s u : State} (h : DepthMoved d s u) :
    Sat u.dsPop (fun p => DepthMoved (d - 1) s p.2) OwnFault :=
  (dsPop_sat u).mono fun p hp => by
    obtain ⟨hpos, rfl⟩ := hp
    obtain ⟨hsp, hrs⟩ := h
    exact ⟨by simp only [State.sp] at hsp ⊢; omega, hrs⟩

theorem DepthMoved.dsPush {d : Int} {s u : State} (h : DepthMoved d s u) (v : Word) :
    Sat (u.dsPush v) (DepthMoved (d + 1) s) OwnFault :=
  (dsPush_sat u v).mono fun t ht => by
    obtain ⟨-, rfl⟩ := ht
    obtain ⟨hsp, hrs⟩ := h
    exact ⟨by simp only [State.sp] at hsp ⊢; omega, hrs⟩

/-- A committed `dup`, `drop` or `swap` moves the depth by its row of R116: its pushes less its pops. -/
theorem exec_eq_commit_depth {i : Instr} (hi : i = .dup ∨ i = .drop ∨ i = .swap) (s : State) :
    ∃ w, exec i s = s.commit w ∧ Sat w (DepthMoved (depthChange i) s) OwnFault := by
  have pop := (DepthMoved.refl s).dsPop
  obtain rfl | rfl | rfl := hi
  · exact ⟨_, rfl, pop.bind fun _ h => (h.dsPush _).bind fun _ h => (h.dsPush _).bind fun _ h => h⟩
  · exact ⟨_, rfl, pop.bind fun _ h => h⟩
  · exact ⟨_, rfl, pop.bind fun _ h => h.dsPop.bind fun _ h => (h.dsPush _).bind fun _ h =>
      (h.dsPush _).bind fun _ h => h⟩

/-- Where the machine is Running afterwards the instruction took no fault, so it committed. -/
theorem depthMoved_of_running {i : Instr} {s t : State} (hi : i = .dup ∨ i = .drop ∨ i = .swap)
    (h : exec i s = .next t) (hrun : t.run = .running) : DepthMoved (depthChange i) s t := by
  obtain ⟨w, hw, hs⟩ := exec_eq_commit_depth hi s
  rw [hw] at h
  rcases commit_cases h with rfl | ⟨c, -, rfl⟩
  · exact hs
  · cases hrun

/-- The changes add up along the sequence. -/
theorem depthMoved_of_runsThrough {is : List Instr} {s t : State}
    (his : ∀ i ∈ is, i = .dup ∨ i = .drop ∨ i = .swap) (h : RunsThrough is s t) :
    DepthMoved (is.map depthChange).sum s t := by
  induction is generalizing s with
  | nil =>
    obtain rfl : t = s := h
    exact .refl t
  | cons i is ih =>
    obtain ⟨u, hexec, hrun, hrest⟩ := h
    obtain ⟨hi, htail⟩ := List.forall_mem_cons.mp his
    rw [List.map_cons, List.sum_cons]
    exact (depthMoved_of_running hi hexec hrun).trans (ih htail hrest)

/-- Settles O22: where Table M gives no fault the exact next state shows the depths; along a sequence of `dup`, `drop`,
`swap` the changes add up by induction (`depthMoved_of_runsThrough`). -/
theorem stackDepthLaw : Obligations.StackDepthLaw := by
  refine ⟨fun s hwf hip => ⟨fun imm hnone => ?lit, fun hnone => ?dup, fun hnone => ?drop, fun hnone => ?swap,
    fun hnone => ?push, fun hnone => ?pop⟩, fun is s t his h => ?sequence⟩
  case lit =>
    obtain ⟨himm, hroom⟩ := faultTable_lit_eq_none.mp hnone
    exact ⟨_, exec_lit_of_room (by omega) hroom imm, rfl, rfl⟩
  case dup =>
    obtain ⟨hsp, hroom⟩ := faultTable_dup_eq_none.mp hnone
    exact ⟨_, exec_dup_of_room hsp (Nat.lt_of_le_of_ne hwf.dsCount hroom), rfl, rfl⟩
  case drop =>
    have hsp : 1 ≤ s.sp := needsData_eq_none.mp hnone
    exact ⟨_, exec_drop_of_one hsp, Nat.sub_add_cancel hsp, rfl⟩
  case swap => exact ⟨_, exec_swap_of_two (needsData_eq_none.mp hnone) hwf.dsCount, rfl, rfl⟩
  case push =>
    obtain ⟨hsp, hroom⟩ := faultTable_push_eq_none.mp hnone
    exact ⟨_, exec_push_of_room hsp hroom, Nat.sub_add_cancel hsp, rfl⟩
  case pop =>
    obtain ⟨hrp, hroom⟩ := faultTable_pop_eq_none.mp hnone
    exact ⟨_, exec_pop_of_room hrp hroom, rfl, Nat.sub_add_cancel hrp⟩
  case sequence =>
    obtain ⟨hsp, hrs⟩ := depthMoved_of_runsThrough his h
    exact ⟨hsp, congrArg Stack.count hrs⟩

end Sys2Proof.Machine
end

/-! # 45_comparison.md: comparisons as truth values (R184) -/

/-! ## Canonical truth values and the bitwise operations on them (R184, R190 to R192) -/

section
namespace Sys2Proof.Machine

theorem boolWord_canonical (b : Bool) : boolWord b = 0 ∨ boolWord b = 0xFFFFFFFF := by
  cases b with
  | false => exact .inl rfl
  | true => exact .inr rfl

theorem truthWord_of_true {p : Prop} [Decidable p] (h : p) : truthWord p = 0xFFFFFFFF := if_pos h

theorem truthWord_of_false {p : Prop} [Decidable p] (h : ¬p) : truthWord p = 0 := if_neg h

theorem truthWord_congr {p q : Prop} [Decidable p] [Decidable q] (h : p ↔ q) : truthWord p = truthWord q := by
  simp only [truthWord, h]

/-- With no bit set or all of them, `&` is "and". -/
theorem andValue_truthWord (p q : Prop) [Decidable p] [Decidable q] :
    andValue (truthWord p) (truthWord q) = truthWord (p ∧ q) := by
  by_cases hp : p
  · rw [truthWord_of_true hp, truthWord_congr (and_iff_right hp)]
    exact BitVec.allOnes_and
  · rw [truthWord_of_false hp, truthWord_of_false (not_and_of_not_left q hp)]
    exact BitVec.zero_and

/-- With no bit set or all of them, `|` is "or". -/
theorem orValue_truthWord (p q : Prop) [Decidable p] [Decidable q] :
    orValue (truthWord p) (truthWord q) = truthWord (p ∨ q) := by
  by_cases hp : p
  · rw [truthWord_of_true hp, truthWord_of_true (Or.inl hp)]
    exact BitVec.allOnes_or
  · rw [truthWord_of_false hp, truthWord_congr (or_iff_right hp)]
    exact BitVec.zero_or

/-- `^` with all bits set turns a canonical truth value into the other. -/
theorem xorValue_truthWord_allOnes (p : Prop) [Decidable p] :
    xorValue (truthWord p) 0xFFFFFFFF = truthWord (¬p) := by
  by_cases hp : p
  · rw [truthWord_of_true hp, truthWord_of_false (not_not_intro hp)]
    rfl
  · rw [truthWord_of_false hp, truthWord_of_true hp]
    rfl

/-- With no bit set or all of them, `^` is "exclusive or". -/
theorem xorValue_truthWord (p q : Prop) [Decidable p] [Decidable q] :
    xorValue (truthWord p) (truthWord q) = truthWord (¬(p ↔ q)) := by
  by_cases hq : q
  · rw [truthWord_of_true hq, xorValue_truthWord_allOnes, truthWord_congr (not_congr (iff_true_right hq))]
  · rw [truthWord_of_false hq, truthWord_congr (p := ¬(p ↔ q)) (q := p) (by simp [hq])]
    exact BitVec.xor_zero

end Sys2Proof.Machine
end

/-! ## What a two-operand instruction and a taken conditional transfer do (R131, R133) -/

section
namespace Sys2Proof.Machine

/-- A two-operand instruction with its operands completes with its value on top. -/
theorem binary_tos {s : State} (hwf : s.wf) (hsp : 2 ≤ s.sp) (f : Word → Word → Word) :
    ∃ t, s.commit (s.binary f) = .next t ∧ t.tos = f s.nos s.tos := by
  have hcell : s.sp - 2 < s.ds.cells.length := by
    have hcap : s.sp ≤ s.cfg.dsCap := hwf.dsCount
    rw [hwf.dsCells]
    omega
  have htop := peek_set hcell (f s.nos s.tos)
  rw [show s.sp - 2 + 1 = s.sp - 1 by omega] at htop
  exact ⟨_, congrArg s.commit (binary_of_two hsp hwf.dsCount f), htop⟩

/-- Any condition word but 0 takes the transfer (R131, R133). -/
theorem conditional_of_taken {s : State} (hsp : 2 ≤ s.sp) (hc : s.nos ≠ 0) (taken : Word → State → Work State) :
    s.conditional taken = taken s.tos { s with ds := ⟨s.ds.cells, s.sp - 2⟩ } := by
  dsimp only [State.sp] at hsp
  have hcond : conditionHolds (s.ds.peek 1) = true := conditionHolds_iff.mpr hc
  simp (disch := first | omega | (dsimp only; omega)) only [State.conditional, dsPop_of_pos, work_ok_bind,
    peek_count_sub, hcond, if_true]
  rfl

theorem exec_cjmp_of_taken {s : State} (hsp : 2 ≤ s.sp) (hc : s.nos ≠ 0) (ha : TargetOk s s.tos) :
    exec .cjmp s = .next { s with ds := ⟨s.ds.cells, s.sp - 2⟩, ip := s.tos.toInt.toNat } := by
  rw [exec, execCjmp, conditional_of_taken hsp hc]
  exact congrArg s.commit (jumpTo_of_ok (s := { s with ds := ⟨s.ds.cells, s.sp - 2⟩ }) ha)

theorem exec_ccall_of_taken {s : State} (hsp : 2 ≤ s.sp) (hc : s.nos ≠ 0) (ha : TargetOk s s.tos)
    (hroom : s.rp ≠ s.cfg.rsCap) :
    exec .ccall s = .next { s with
      ds := ⟨s.ds.cells, s.sp - 2⟩, rs := ⟨s.rs.cells.set s.rp (zext32 (s.ip + 1)), s.rp + 1⟩,
      ip := s.tos.toInt.toNat } := by
  rw [exec, execCcall, conditional_of_taken hsp hc]
  exact congrArg s.commit (callTo_of_ok (s := { s with ds := ⟨s.ds.cells, s.sp - 2⟩ }) ha hroom)

/-- Each comparison pushes what `boolWord` makes, one of the two canonical truth values. -/
theorem exec_comparison_tos {i : Instr} {s : State} (hi : i = .eq ∨ i = .ne ∨ i = .lt ∨ i = .gt) (hwf : s.wf)
    (hsp : 2 ≤ s.sp) : ∃ t, exec i s = .next t ∧ (t.tos = 0 ∨ t.tos = 0xFFFFFFFF) := by
  obtain ⟨f, b, hexec, hvalue⟩ : ∃ f b, exec i s = s.commit (s.binary f) ∧ f s.nos s.tos = boolWord b := by
    obtain rfl | rfl | rfl | rfl := hi
    · exact ⟨eqValue, _, rfl, rfl⟩
    · exact ⟨neValue, _, rfl, rfl⟩
    · exact ⟨ltValue, _, rfl, rfl⟩
    · exact ⟨gtValue, _, rfl, rfl⟩
  obtain ⟨t, ht, htos⟩ := binary_tos hwf hsp f
  exact ⟨t, hexec.trans ht, by rw [htos, hvalue]; exact boolWord_canonical b⟩

/-- Settles O23: every value pushed is the operation's on NOS and TOS (`binary_tos`), and on canonical truth values that
is the logical one (`andValue_truthWord`, `orValue_truthWord`, `xorValue_truthWord`); a condition other than 0 takes the
transfer (`conditional_of_taken`). -/
theorem comparisonsAreCanonicalBooleans : Obligations.ComparisonsAreCanonicalBooleans := by
  refine ⟨fun _ _ => exec_comparison_tos, fun s p q _ _ hwf hsp hp hq => ?logical,
    fun s p _ hwf hsp hp hones => ?negation, fun s _ hsp hc ha => ?conditions, fun s hwf hsp h1 h2 => ?noncanonical⟩
  case logical =>
    have htop := binary_tos hwf hsp
    rw [hp, hq] at htop
    rw [← andValue_truthWord, ← orValue_truthWord, ← xorValue_truthWord]
    exact ⟨htop andValue, htop orValue, htop xorValue⟩
  case negation =>
    rw [← xorValue_truthWord_allOnes, ← hp, ← hones]
    exact binary_tos hwf hsp xorValue
  case conditions =>
    exact ⟨⟨_, exec_cjmp_of_taken hsp hc ha, rfl⟩,
      fun hroom => ⟨_, exec_ccall_of_taken hsp hc ha (Nat.ne_of_lt hroom), rfl⟩⟩
  case noncanonical =>
    have hzero : andValue s.nos s.tos = 0 := by rw [h1, h2]; rfl
    rw [← hzero]
    exact binary_tos hwf hsp andValue

end Sys2Proof.Machine
end

/-! # 30_encoding.md: the decoder against the encoder (R81 to R87) -/

section
namespace Sys2Proof

theorem exists_of_op_eq_lit {i : Instr} (h : i.op = .lit) : ∃ imm, i = .lit imm := by
  cases i
  case lit imm => exact ⟨imm, rfl⟩
  all_goals cases h

theorem oneWord_isSome {o : Op} (h : o ≠ .lit) : ∃ i, o.oneWord = some i :=
  Option.ne_none_iff_exists'.mp (mt oneWord_none h)

/-- The opcode word of a one-word instruction decodes to it, whatever follows (R81, R87). -/
theorem decode_of_oneWord {map : List Op} {w : Word} {o : Op} {i : Instr} (hw : opOfWord map w = some o)
    (hi : o.oneWord = some i) (rest : List Word) : decode map (w :: rest) = .ok (i, rest) := by
  simp only [decode, hw, hi]

/-- After the opcode word of `lit` stands its immediate (R83). -/
theorem decode_of_lit {map : List Op} {w : Word} (hw : opOfWord map w = some .lit) (rest : List Word) :
    decode map (w :: rest) = decodeLit rest := by
  simp only [decode, hw, Op.oneWord]

/-- Settles O1: the opcode word selects the mnemonic back (`opOfWord_wordOfOp`); a `lit` then takes its one operand
word, any other instruction has none. -/
theorem decodeOfEncodeIsIdentity : Obligations.DecodeOfEncodeIsIdentity := by
  intro map hmap i rest
  have hw := opOfWord_wordOfOp hmap i.op
  rw [encode, List.cons_append]
  by_cases hi : i.op = .lit
  · obtain ⟨imm, rfl⟩ := exists_of_op_eq_lit hi
    exact decode_of_lit hw _
  · have hone := oneWord_of_op hi
    rw [(oneWord_op hone).2]
    exact decode_of_oneWord hw hone rest

/-- Settles O2: the words are split as `decode_inv` says, and the opcode word of a mnemonic is unique
(`wordOfOp_of_opOfWord`). -/
theorem encodeOfDecodeIsIdentity : Obligations.EncodeOfDecodeIsIdentity := by
  intro map hmap ws i rest h
  obtain ⟨w, hw, rfl⟩ := decode_inv h
  rw [encode, List.cons_append, wordOfOp_of_opOfWord hmap hw]

/-- Settles O3: `lit` is the one mnemonic of format L (`decode_of_lit`), every other is of format O
(`decode_of_oneWord`). -/
theorem opcodeWordFixesLength : Obligations.OpcodeWordFixesLength := by
  intro map _ w o hw
  refine ⟨fun ho => ?_, ?_⟩
  · obtain ⟨i, hi⟩ := oneWord_isSome ho
    exact ⟨i, (oneWord_op hi).1, decode_of_oneWord hw hi⟩
  · rintro rfl
    exact ⟨fun imm rest => decode_of_lit hw (imm :: rest), decode_of_lit hw []⟩

/-- Settles O4, by evaluation of the decoder on the fourteen words. -/
theorem tableOPWordsDecode : Obligations.TableOPWordsDecode := by
  unfold Obligations.TableOPWordsDecode
  decide

end Sys2Proof
end

/-! # 30_encoding.md and 60_exceptions.md: what a step answers (R86, R226, R232) -/

section
namespace Sys2Proof.Machine

/-- A `lit` in the last cell has no immediate to fetch (R110, D6). -/
theorem fetchInstr_of_lit_last {s : State} (hmap : OpcodeMapWf s.cfg.opcodeMap) (hip : s.ip + 1 = s.cfg.memWords)
    (hread : s.mem.read s.ip = wordOfOp s.cfg.opcodeMap .lit) :
    s.fetchInstr = .error (.memoryOutOfRange .ifetch (zext32 (s.ip + 1))) := by
  have hwords : s.wordsAt s.ip = [s.mem.read s.ip] := if_neg (by omega)
  have hdecode := decode_of_lit (opOfWord_wordOfOp hmap .lit) []
  rw [fetchInstr_inside (by omega), State.decodeAt, hwords, hread, hdecode]
  rfl

theorem step_of_fetch_ok {s : State} {i : Instr} (hrun : s.run = .running) (h : s.fetchInstr = .ok i) :
    step s = exec i s := by
  rw [step_running hrun, h]

theorem step_of_fetch_error {s : State} {c : FaultCause} (hrun : s.run = .running) (h : s.fetchInstr = .error c) :
    step s = .next (s.takeFault c) := by
  rw [step_running hrun, h]

/-- Settles O6: what decodes at `ip` is what is fetched (`fetchInstr_of_decode`). -/
theorem stepRunsDecodedInstruction : Obligations.StepRunsDecodedInstruction :=
  fun _ _ _ hrun hip h => step_of_fetch_ok hrun (fetchInstr_of_decode hip h)

/-- Settles O7: at `MEM_WORDS` the fetch fails its range check, and a `lit` in the last cell decodes to a missing
immediate. -/
theorem fetchBeyondMemoryFaults : Obligations.FetchBeyondMemoryFaults := by
  intro s hwf hrun
  obtain ⟨-, -, -, hmap⟩ := hwf.cfgOk
  exact ⟨fun hip => step_of_fetch_error hrun (fetchInstr_outside (Nat.le_of_eq hip.symm)),
    fun hip hread => step_of_fetch_error hrun (fetchInstr_of_lit_last hmap hip hread)⟩

theorem result_of_running {s : State} (h : s.run = .running) : s.result = .cont := by simp only [State.result, h]

theorem result_of_halted {s : State} (h : s.run = .halted) : s.result = .halt := by simp only [State.result, h]

theorem result_of_faulted {s : State} (h : s.run = .faulted) : s.result = .fault s.fault := by
  simp only [State.result, h]

/-- Settles O8: a stopped machine stays as it is (`step_stopped`), so it reports as before. -/
theorem stoppedStepChangesNothing : Obligations.StoppedStepChangesNothing :=
  fun _ hrun => ⟨step_stopped hrun, result_of_halted, result_of_faulted⟩

/-- Settles O9: stopped it answers itself, Running a fault entry or what the instruction answers (`exec_next`). -/
theorem everyStepAnswersNext : Obligations.EveryStepAnswersNext := by
  intro s
  by_cases hrun : s.run = .running
  · cases hf : s.fetchInstr with
    | ok i => rw [step_of_fetch_ok hrun hf]; exact exec_next i s
    | error c => exact ⟨_, step_of_fetch_error hrun hf⟩
  · exact ⟨s, step_stopped hrun⟩

/-- All that a step can do, with what an instruction does when it commits: nothing, a fault entry, or a commit. -/
theorem step_cases {s t : State} (h : step s = .next t) :
    (s.run ≠ .running ∧ t = s) ∨ (s.run = .running ∧ ∃ c, t = s.takeFault c) ∨
    (s.run = .running ∧ ∃ i, s.fetchInstr = .ok i ∧ exec i s = .next t ∧ Committed i s t) := by
  rcases step_inv h with hstop | ⟨hrun, i, hf, hx⟩ | ⟨hrun, c, -, ht⟩
  · exact .inl hstop
  · rcases exec_inv hx with hc | ⟨c, -, ht⟩
    · exact .inr (.inr ⟨hrun, i, hf, hx, hc⟩)
    · exact .inr (.inl ⟨hrun, c, ht⟩)
  · exact .inr (.inl ⟨hrun, c, ht⟩)

theorem Committed.run_of_ne_stop {i : Instr} {s t : State} (h : Committed i s t) (hi : i ≠ .stop) : t.run = s.run := by
  rw [h.run, if_neg hi]

/-- No instruction commits into Faulted. -/
theorem Committed.not_faulted {i : Instr} {s t : State} (h : Committed i s t) (hrun : s.run = .running) :
    t.run ≠ .faulted := by
  rw [h.run, hrun]
  split <;> simp

/-- Settles O13: a commit never ends Faulted (`Committed.not_faulted`), so the step was a fault entry. -/
theorem faultEntryIsPrecise : Obligations.FaultEntryIsPrecise := by
  intro s t hrun h hfaulted
  rcases step_cases h with ⟨hstop, -⟩ | ⟨-, c, rfl⟩ | ⟨-, i, -, -, hc⟩
  · exact absurd hrun hstop
  · exact ⟨c, rfl, rfl⟩
  · exact absurd hfaulted (hc.not_faulted hrun)

theorem faultCode_of_none {s : State} (h : s.fault = none) : s.faultCode = 0 := by simp only [State.faultCode, h]

theorem faultCode_of_some {s : State} {c : FaultCause} {a : Nat} (h : s.fault = some ⟨c, a⟩) :
    s.faultCode = c.code := by
  simp only [State.faultCode, h, FaultRecord.code]

/-- Settles O14: with a record the code is that of its cause. -/
theorem faultCodesOfTableF : Obligations.FaultCodesOfTableF :=
  fun _ => ⟨faultCode_of_none, fun _ _ => faultCode_of_some, fun _ _ _ => faultCode_of_some,
    fun _ _ _ => faultCode_of_some, fun _ _ _ => faultCode_of_some, fun _ => faultCode_of_some⟩

/-- The instructions that set `ip` in a way of their own, by their mnemonics. -/
theorem op_mem_of_setsIp {i : Instr} (h : SetsIp i = true) :
    i.op ∈ [Op.stop, .lit, .jmp, .cjmp, .call, .ccall, .ret] := by
  cases i
  case stop | lit | jmp | cjmp | call | ccall | ret => simp only [Instr.op, List.mem_cons, true_or, or_true]
  all_goals cases h

/-- Settles O16: the instruction did not fault, so it committed, and `Committed` names its `ip` and its run state. -/
theorem defaultAdvanceAndResult : Obligations.DefaultAdvanceAndResult := by
  intro i s t hrun h hok
  rcases exec_inv h with hc | ⟨c, -, rfl⟩
  · refine ⟨fun hi => ?continues, fun hi => ?halts, hc.ipLit, fun hi => ?advances⟩
    case continues =>
      have htrun : t.run = .running := (hc.run_of_ne_stop hi).trans hrun
      exact ⟨htrun, result_of_running htrun⟩
    case halts =>
      have htrun : t.run = .halted := by rw [hc.run, if_pos hi]
      exact ⟨hc.ipStop hi, htrun, result_of_halted htrun⟩
    case advances => exact hc.ipNext (Bool.eq_false_iff.mpr (mt op_mem_of_setsIp hi))
  · exact absurd rfl hok

end Sys2Proof.Machine
end

/-! # 10_state.md: what every step keeps (R29, R31, R205) -/

section
namespace Sys2Proof.Machine

/-- A commit from Running keeps the invariants (R31). -/
theorem Committed.wf {i : Instr} {s t : State} (h : Committed i s t) (w : s.wf) (hrun : s.run = .running)
    (hip : s.ip < s.cfg.memWords) : t.wf := by
  have hnone : t.fault = none := by
    rw [h.fault, ← Option.not_isSome_iff_eq_none, w.faultIff, hrun]
    simp
  exact
    { cfgOk := h.cfg ▸ w.cfgOk
      memOk := by
        rcases h.mem with hm | ⟨-, a, v, -, hm⟩ <;> rw [hm]
        · exact w.memOk
        · exact Memory.write_wf w.memOk a v
      memBound := by
        rcases h.mem with hm | ⟨-, a, v, ha, hm⟩ <;> rw [hm, h.cfg]
        · exact w.memBound
        · exact Memory.write_bound w.memBound ha v
      dsCells := by rw [h.dsCells, h.cfg, w.dsCells]
      dsCount := h.cfg ▸ h.dsCount w.dsCount
      rsCells := by rw [h.rsCells, h.cfg, w.rsCells]
      rsCount := h.cfg ▸ h.rsCount w.rsCount
      ipBound := h.cfg ▸ h.ipBound hip
      faultIff := by simp [hnone, h.not_faulted hrun]
      faultIp := by simp [hnone]
      eventContext := by
        rw [h.context]
        rcases h.events with he | ⟨-, e, hec, he⟩ <;> rw [he]
        · exact w.eventContext
        · exact List.forall_mem_append.mpr ⟨w.eventContext, List.forall_mem_singleton.mpr hec⟩ }

/-- Settles O10: fault entry (`takeFault_wf`) and commit (`Committed.wf`) keep the invariants. -/
theorem stepKeepsWellFormed : Obligations.StepKeepsWellFormed := by
  intro s t hwf h
  rcases step_cases h with ⟨-, rfl⟩ | ⟨-, c, rfl⟩ | ⟨hrun, i, hf, -, hc⟩
  · exact hwf
  · exact takeFault_wf hwf c
  · exact hc.wf hwf hrun (fetchInstr_ok hf)

/-- Settles O12: a step that halts ran the `stop` at `ip`, which changes neither `ip` nor memory. -/
theorem haltedStaysAtStop : Obligations.HaltedStaysAtStop := by
  intro s t hs h hhalted
  rcases step_cases h with ⟨-, rfl⟩ | ⟨-, c, rfl⟩ | ⟨hrun, i, hf, hx, hc⟩
  · exact hs hhalted
  · cases hhalted
  · by_cases hi : i = .stop
    · subst hi
      cases hx
      exact (fetchInstr_congr rfl rfl fun _ => rfl).trans hf
    · rw [hc.run_of_ne_stop hi, hrun] at hhalted
      cases hhalted

/-- Settles O18: neither a fault entry nor a commit writes those fields. -/
theorem stepKeepsParametersAndContext : Obligations.StepKeepsParametersAndContext := by
  intro s t h
  rcases step_cases h with ⟨-, rfl⟩ | ⟨-, c, rfl⟩ | ⟨-, i, -, -, hc⟩
  · exact ⟨rfl, rfl, rfl, rfl⟩
  · exact ⟨rfl, rfl, rfl, rfl⟩
  · exact ⟨hc.cfg, hc.bridge, hc.context, hc.loaded⟩

theorem isSyscall_of_emits {i : Instr} (h : Emits i = true) : isSyscall i := by
  cases i
  case syscall0 | syscall1 | syscall2 | syscall3 | syscall4 => simp [isSyscall]
  all_goals cases h

/-- Settles O19: only a commit sends an event, and the instruction that sends one is a syscall (`Committed.events`). -/
theorem syscallsAloneEmitEvents : Obligations.SyscallsAloneEmitEvents := by
  intro s t h
  rcases step_cases h with ⟨-, rfl⟩ | ⟨-, c, rfl⟩ | ⟨hrun, i, hf, -, hc⟩
  · exact .inl rfl
  · exact .inl rfl
  · refine hc.events.imp id fun ⟨hemits, hevent⟩ => ?_
    have hi : i ≠ .stop := by rintro rfl; cases hemits
    exact ⟨hrun, (hc.run_of_ne_stop hi).trans hrun, ⟨i, hf, isSyscall_of_emits hemits⟩, hevent⟩

end Sys2Proof.Machine
end

/-! # 47_syscall.md: the host beside the CORE (R206) -/

section
namespace Sys2Proof.Machine

/-- The second state is the first with another host: handle, context, record of the load, and any events. -/
def OtherHost (b : Option BridgeHandle) (x : Context) (l : Bool) (s t : State) : Prop :=
  ∃ es, t = { s with bridge := b, context := x, events := es, loaded := l }

/-- No primitive looks at the host's fields. -/
theorem otherHost_kept (b : Option BridgeHandle) (x : Context) (l : Bool) : KeptByPrimitives (OtherHost b x l) where
  cfg := by rintro s _ ⟨es, rfl⟩; rfl
  ip := by rintro s _ ⟨es, rfl⟩; rfl
  dsPop := by
    rintro s _ ⟨es, rfl⟩
    simp only [State.dsPop]
    split
    · exact rfl
    · exact ⟨rfl, es, rfl⟩
  rsPop := by
    rintro s _ ⟨es, rfl⟩
    simp only [State.rsPop]
    split
    · exact rfl
    · exact ⟨rfl, es, rfl⟩
  dsPush := by
    rintro s _ ⟨es, rfl⟩ v
    simp only [State.dsPush]
    split
    · exact rfl
    · exact ⟨es, rfl⟩
  rsPush := by
    rintro s _ ⟨es, rfl⟩ v
    simp only [State.rsPush]
    split
    · exact rfl
    · exact ⟨es, rfl⟩
  setIp := by rintro s _ ⟨es, rfl⟩ a; exact ⟨es, rfl⟩
  emit := by rintro s _ ⟨es, rfl⟩ n a b c d; exact ⟨_, rfl⟩
  halt := by rintro s _ ⟨es, rfl⟩; exact ⟨es, rfl⟩
  takeFault := by rintro s _ ⟨es, rfl⟩ c; exact ⟨es, rfl⟩

theorem otherHost_keptByMemory (b : Option BridgeHandle) (x : Context) (l : Bool) :
    KeptByMemory (OtherHost b x l) where
  memRead := by rintro s _ ⟨es, rfl⟩ a; rfl
  memWrite := by rintro s _ ⟨es, rfl⟩ a v; exact ⟨es, rfl⟩

/-- Settles O20: the machines with the one host and with the other run side by side (`KeptByPrimitives.step`). -/
theorem hostCannotInfluenceTheCore : Obligations.HostCannotInfluenceTheCore := by
  intro s t b x es l h
  obtain ⟨u, v, hu, hv, es', rfl⟩ := (otherHost_kept b x l).step (otherHost_keptByMemory b x l)
    (by rintro s _ ⟨es, rfl⟩; rfl) (⟨es, rfl⟩ : OtherHost b x l s _)
  rw [h] at hu
  cases hu
  exact ⟨es', hv⟩

end Sys2Proof.Machine
end

/-! # 10_state.md: stale stack cells (R30) -/

section
namespace Sys2Proof.Machine

/-- Two stacks of one capacity with the same words in use. -/
structure Stack.SameLive (cap : Nat) (a b : Stack) : Prop where
  count : b.count = a.count
  live : b.live = a.live
  bound : a.count ≤ cap
  cells : a.cells.length = cap
  cells' : b.cells.length = cap

theorem Stack.SameLive.pop {cap : Nat} {a b : Stack} (h : a.SameLive cap b) :
    Stack.SameLive cap ⟨a.cells, a.count - 1⟩ ⟨b.cells, b.count - 1⟩ where
  count := by rw [h.count]
  live := by rw [live_pop, live_pop, h.live, h.count]
  bound := Nat.le_trans (Nat.sub_le _ _) h.bound
  cells := h.cells
  cells' := h.cells'

theorem Stack.SameLive.push {cap : Nat} {a b : Stack} (h : a.SameLive cap b) (hroom : a.count ≠ cap) (v : Word) :
    Stack.SameLive cap ⟨a.cells.set a.count v, a.count + 1⟩ ⟨b.cells.set b.count v, b.count + 1⟩ := by
  have hlt : a.count < cap := Nat.lt_of_le_of_ne h.bound hroom
  exact
    { count := by rw [h.count]
      live := by
        rw [live_push (by rw [h.count, h.cells']; exact hlt), live_push (by rw [h.cells]; exact hlt), h.live]
      bound := hlt
      cells := by rw [List.length_set, h.cells]
      cells' := by rw [List.length_set, h.cells'] }

/-- Two states inside their stack arrays that differ at most in stale stack cells. -/
structure StaleApart (s t : State) : Prop where
  rest : t = { s with ds := t.ds, rs := t.rs }
  ds : s.ds.SameLive s.cfg.dsCap t.ds
  rs : s.rs.SameLive s.cfg.rsCap t.rs

theorem StaleApart.of_sameLive {s t : State} (hs : s.wf) (ht : t.wf) (h : s.sameLive t) : StaleApart s t := by
  have hcfg : t.cfg = s.cfg := by rw [h.rest]
  exact ⟨h.rest, ⟨h.dsCount, h.dsLive, hs.dsCount, hs.dsCells, hcfg ▸ ht.dsCells⟩,
    ⟨h.rsCount, h.rsLive, hs.rsCount, hs.rsCells, hcfg ▸ ht.rsCells⟩⟩

theorem StaleApart.sameLive {s t : State} (h : StaleApart s t) : s.sameLive t :=
  ⟨h.rest, h.ds.count, h.rs.count, h.ds.live, h.rs.live⟩

/-- The form in which the primitives meet related states: one record, two pairs of stacks. -/
theorem StaleApart.exists_stacks {s t : State} (h : StaleApart s t) :
    ∃ d r, t = { s with ds := d, rs := r } ∧ s.ds.SameLive s.cfg.dsCap d ∧ s.rs.SameLive s.cfg.rsCap r :=
  ⟨t.ds, t.rs, h.rest, h.ds, h.rs⟩

/-- A pop looks at a live cell, a push writes the first stale one. -/
theorem staleApart_kept : KeptByPrimitives StaleApart where
  cfg h := by rw [h.rest]
  ip h := by rw [h.rest]
  dsPop {s _} h := by
    obtain ⟨d, r, rfl, hd, hr⟩ := h.exists_stacks
    rcases Nat.eq_zero_or_pos s.ds.count with h0 | h0
    · rw [dsPop_of_empty h0, dsPop_of_empty (hd.count.trans h0)]
      exact rfl
    · rw [dsPop_of_pos h0, dsPop_of_pos (hd.count ▸ h0)]
      exact ⟨(live_peek hd.count hd.live h0).symm, rfl, hd.pop, hr⟩
  rsPop {s _} h := by
    obtain ⟨d, r, rfl, hd, hr⟩ := h.exists_stacks
    rcases Nat.eq_zero_or_pos s.rs.count with h0 | h0
    · rw [rsPop_of_empty h0, rsPop_of_empty (hr.count.trans h0)]
      exact rfl
    · rw [rsPop_of_pos h0, rsPop_of_pos (hr.count ▸ h0)]
      exact ⟨(live_peek hr.count hr.live h0).symm, rfl, hd, hr.pop⟩
  dsPush {s _} h v := by
    obtain ⟨d, r, rfl, hd, hr⟩ := h.exists_stacks
    by_cases h0 : s.ds.count = s.cfg.dsCap
    · rw [dsPush_of_full h0, dsPush_of_full (hd.count.trans h0)]
      exact rfl
    · rw [dsPush_of_room h0, dsPush_of_room (hd.count ▸ h0)]
      exact ⟨rfl, hd.push h0 v, hr⟩
  rsPush {s _} h v := by
    obtain ⟨d, r, rfl, hd, hr⟩ := h.exists_stacks
    by_cases h0 : s.rs.count = s.cfg.rsCap
    · rw [rsPush_of_full h0, rsPush_of_full (hr.count.trans h0)]
      exact rfl
    · rw [rsPush_of_room h0, rsPush_of_room (hr.count ▸ h0)]
      exact ⟨rfl, hd, hr.push h0 v⟩
  setIp h a := by
    obtain ⟨d, r, rfl, hd, hr⟩ := h.exists_stacks
    exact ⟨rfl, hd, hr⟩
  emit h n a b c d := by
    obtain ⟨d, r, rfl, hd, hr⟩ := h.exists_stacks
    exact ⟨rfl, hd, hr⟩
  halt h := by
    obtain ⟨d, r, rfl, hd, hr⟩ := h.exists_stacks
    exact ⟨rfl, hd, hr⟩
  takeFault h c := by
    obtain ⟨d, r, rfl, hd, hr⟩ := h.exists_stacks
    exact ⟨rfl, hd, hr⟩

theorem staleApart_keptByMemory : KeptByMemory StaleApart where
  memRead h a := by rw [h.rest]; rfl
  memWrite h a v := by
    obtain ⟨d, r, rfl, hd, hr⟩ := h.exists_stacks
    exact ⟨rfl, hd, hr⟩

/-- Settles O21: with the sizes of the stack arrays, which `State.wf` gives, the relation is one that every primitive
keeps, so every step keeps it (`KeptByPrimitives.step`). -/
theorem staleCellsAreUnobservable : Obligations.StaleCellsAreUnobservable := by
  intro s t hs ht h
  obtain ⟨s', t', hs', ht', h'⟩ := staleApart_kept.step staleApart_keptByMemory
    (fun h => by rw [h.rest]) (StaleApart.of_sameLive hs ht h)
  exact ⟨s', t', hs', ht', h'.sameLive⟩

end Sys2Proof.Machine
end

/-! # Pops and pushes that fault: the underflow and overflow columns of Table M (R223, R228) -/

section
namespace Sys2Proof.Machine

/-- Work that takes StackUnderflow(data, pop) from every state with fewer than `n` words on the data stack. -/
def NeedsWords {α : Type} (n : Nat) (f : State → Work α) : Prop :=
  ∀ s : State, s.sp < n → f s = .error (.stackUnderflow .data .pop)

theorem NeedsWords.zero {α : Type} (f : State → Work α) : NeedsWords 0 f := fun _ h => absurd h (Nat.not_lt_zero _)

/-- A pop needs one word more than what comes after it. -/
theorem NeedsWords.pop {α : Type} {n : Nat} {f : Word × State → Work α} (h : ∀ v, NeedsWords n fun s => f (v, s)) :
    NeedsWords (n + 1) fun s => s.dsPop >>= f := by
  intro s hs
  show s.dsPop >>= f = _
  rcases Nat.eq_zero_or_pos s.ds.count with h0 | h0
  · rw [dsPop_of_empty h0, work_error_bind]
  · rw [dsPop_of_pos h0]
    exact h _ _ (Nat.sub_lt_right_of_lt_add h0 hs)

theorem needsWords_one {α : Type} {f : Word × State → Work α} : NeedsWords 1 fun s => s.dsPop >>= f :=
  .pop fun _ => .zero _

theorem needsWords_binary (f : Word → Word → Word) : NeedsWords 2 (State.binary f) :=
  fun _ h => binary_of_few h f

theorem needsWords_conditional (taken : Word → State → Work State) : NeedsWords 2 (State.conditional taken) :=
  .pop fun _ => needsWords_one

/-- An instruction whose work needs more words than there are takes StackUnderflow. -/
theorem exec_of_few {i : Instr} {n : Nat} {f : State → Work State} (hf : NeedsWords n f)
    (hx : ∀ s, exec i s = s.commit (f s)) {s : State} (h : s.sp < n) :
    exec i s = .next (s.takeFault (.stackUnderflow .data .pop)) := by
  rw [hx, hf s h, commit_error]

/-- An instruction that begins with a pop of an empty return stack. -/
theorem exec_of_return_empty {i : Instr} {f : Word × State → Work State} {s : State} (h : s.rp = 0)
    (hx : exec i s = s.commit (s.rsPop >>= f)) : exec i s = .next (s.takeFault (.stackUnderflow .ret .pop)) := by
  rw [hx, rsPop_of_empty h, work_error_bind, commit_error]

end Sys2Proof.Machine
end

/-! # 40_machine_control.md and 41_stack.md, instruction by instruction -/

section
namespace Sys2Proof.Machine

/-- Settles O35: the work of `nop` is the advance alone. -/
theorem nopOnlyAdvances : Obligations.NopOnlyAdvances := fun _ => rfl

/-- Settles O36: the work of `stop` is to set `run`. -/
theorem stopHaltsInPlace : Obligations.StopHaltsInPlace := fun _ => rfl

theorem exec_lit_of_full {s : State} (hip : s.ip + 1 < s.cfg.memWords) (hfull : s.sp = s.cfg.dsCap) (imm : Word) :
    exec (.lit imm) s = .next (s.takeFault (.stackOverflow .data .push)) := by
  rw [exec, execLit, checkAddr_of_ok (by omega), work_ok_bind, dsPush_of_full hfull, work_error_bind, commit_error]

theorem exec_lit_of_outside {s : State} (hip : s.cfg.memWords ≤ s.ip + 1) (imm : Word) :
    exec (.lit imm) s = .next (s.takeFault (.memoryOutOfRange .ifetch (zext32 (s.ip + 1)))) := by
  rw [exec, execLit, checkAddr_of_bad (by omega), wrap32_natCast, work_error_bind, commit_error, zext32]

/-- Settles O37: the three cases of the immediate's address and the room. -/
theorem litPushesItsImmediate : Obligations.LitPushesItsImmediate :=
  fun _ imm _ => ⟨fun hip hroom => exec_lit_of_room hip (Nat.ne_of_lt hroom) imm,
    fun hip hfull => exec_lit_of_full hip hfull imm, fun hip => exec_lit_of_outside hip imm⟩

theorem exec_dup_of_few {s : State} (h : s.sp < 1) :
    exec .dup s = .next (s.takeFault (.stackUnderflow .data .pop)) :=
  exec_of_few needsWords_one (fun _ => rfl) h

/-- On a full stack the first push of `dup` goes into the cell it popped, the second overflows (D15). -/
theorem exec_dup_of_full {s : State} (hsp : 1 ≤ s.sp) (hfull : s.sp = s.cfg.dsCap) :
    exec .dup s = .next (s.takeFault (.stackOverflow .data .push)) := by
  have hfirst : s.sp - 1 ≠ s.cfg.dsCap := by omega
  have hsecond : s.sp - 1 + 1 = s.cfg.dsCap := by omega
  simp only [exec, execDup, dsPop_of_pos hsp, work_ok_bind]
  rw [dsPush_of_room hfirst, work_ok_bind, dsPush_of_full hsecond, work_error_bind, commit_error]

/-- Settles O38: empty, full and in between (a full stack is not empty since `DS_CAP` is at least 1). -/
theorem dupCopiesTheTop : Obligations.DupCopiesTheTop := by
  intro s hwf
  obtain ⟨-, hcap, -, -⟩ := hwf.cfgOk
  exact ⟨exec_dup_of_room, fun hempty => exec_dup_of_few (by omega),
    fun hfull => exec_dup_of_full (hfull ▸ hcap) hfull⟩

theorem exec_drop_of_few {s : State} (h : s.sp < 1) :
    exec .drop s = .next (s.takeFault (.stackUnderflow .data .pop)) :=
  exec_of_few needsWords_one (fun _ => rfl) h

/-- Settles O39: with and without a word. -/
theorem dropRemovesTheTop : Obligations.DropRemovesTheTop :=
  fun _ => ⟨exec_drop_of_one, fun hempty => exec_drop_of_few (by omega)⟩

theorem exec_swap_of_few {s : State} (h : s.sp < 2) :
    exec .swap s = .next (s.takeFault (.stackUnderflow .data .pop)) :=
  exec_of_few (.pop fun _ => needsWords_one) (fun _ => rfl) h

/-- Settles O40: after its own two pops `swap` always has room. -/
theorem swapExchangesTopTwo : Obligations.SwapExchangesTopTwo :=
  fun _ hwf => ⟨fun hsp => exec_swap_of_two hsp hwf.dsCount, exec_swap_of_few⟩

theorem exec_push_of_few {s : State} (h : s.sp < 1) :
    exec .push s = .next (s.takeFault (.stackUnderflow .data .pop)) :=
  exec_of_few needsWords_one (fun _ => rfl) h

theorem exec_push_of_full {s : State} (hsp : 1 ≤ s.sp) (hfull : s.rp = s.cfg.rsCap) :
    exec .push s = .next (s.takeFault (.stackOverflow .ret .push)) := by
  simp (disch := exact hfull) only [exec, execPush, dsPop_of_pos hsp, work_ok_bind, rsPush_of_full, work_error_bind,
    commit_error]

/-- Settles O41: the pop of the data stack comes first, the push on the return stack after it. -/
theorem pushMovesToReturnStack : Obligations.PushMovesToReturnStack :=
  fun _ _ => ⟨fun hsp hroom => exec_push_of_room hsp (Nat.ne_of_lt hroom),
    fun hempty => exec_push_of_few (by omega), exec_push_of_full⟩

theorem exec_pop_of_empty {s : State} (h : s.rp = 0) :
    exec .pop s = .next (s.takeFault (.stackUnderflow .ret .pop)) :=
  exec_of_return_empty h rfl

theorem exec_pop_of_full {s : State} (hrp : 1 ≤ s.rp) (hfull : s.sp = s.cfg.dsCap) :
    exec .pop s = .next (s.takeFault (.stackOverflow .data .push)) := by
  simp (disch := exact hfull) only [exec, execPop, rsPop_of_pos hrp, work_ok_bind, dsPush_of_full, work_error_bind,
    commit_error]

/-- Settles O42: the pop of the return stack comes first, the push on the data stack after it. -/
theorem popMovesToDataStack : Obligations.PopMovesToDataStack :=
  fun _ _ => ⟨fun hrp hroom => exec_pop_of_room hrp (Nat.ne_of_lt hroom), exec_pop_of_empty, exec_pop_of_full⟩

/-- Settles O30: `pop` puts the word back into the cell `push` took it from, so the data stack is the same array. -/
theorem pushThenPopRestores : Obligations.PushThenPopRestores := by
  intro s hwf hsp hroom
  have hcap : s.sp ≤ s.cfg.dsCap := hwf.dsCount
  have htop : Stack.peek ⟨s.rs.cells.set s.rp s.tos, s.rp + 1⟩ 0 = s.tos :=
    peek_set (by rw [hwf.rsCells]; exact hroom) _
  have hback : s.ds.cells.set (s.sp - 1) s.tos = s.ds.cells := set_getD_self rfl
  refine ⟨_, _, exec_push_of_room hsp (Nat.ne_of_lt hroom),
    exec_pop_of_room (Nat.le_add_left 1 _) (show s.sp - 1 ≠ s.cfg.dsCap by omega), ?_⟩
  simp only [State.tos, State.sp, State.rp] at hsp htop hback ⊢
  simp only [htop, hback, Nat.sub_add_cancel hsp, Nat.add_sub_cancel, Stack.live, List.take_set_of_le (Nat.le_refl _),
    and_self]

end Sys2Proof.Machine
end

/-! # 42_control_transfer.md, instruction by instruction -/

section
namespace Sys2Proof.Machine

theorem exec_jmp_of_one {s : State} (hsp : 1 ≤ s.sp) :
    exec .jmp s = s.commit (State.jumpTo s.tos { s with ds := ⟨s.ds.cells, s.sp - 1⟩ }) := by
  rw [exec, execJmp, dsPop_of_pos hsp]
  rfl

theorem exec_jmp_of_ok {s : State} (hsp : 1 ≤ s.sp) (ha : TargetOk s s.tos) :
    exec .jmp s = .next { s with ds := ⟨s.ds.cells, s.sp - 1⟩, ip := s.tos.toInt.toNat } := by
  rw [exec_jmp_of_one hsp]
  exact congrArg s.commit (jumpTo_of_ok (s := { s with ds := ⟨s.ds.cells, s.sp - 1⟩ }) ha)

theorem exec_jmp_of_few {s : State} (h : s.sp < 1) :
    exec .jmp s = .next (s.takeFault (.stackUnderflow .data .pop)) :=
  exec_of_few needsWords_one (fun _ => rfl) h

theorem exec_jmp_of_bad {s : State} (hsp : 1 ≤ s.sp) (ha : ¬TargetOk s s.tos) :
    exec .jmp s = .next (s.takeFault (.memoryOutOfRange .target s.tos)) := by
  rw [exec_jmp_of_one hsp]
  exact congrArg s.commit (jumpTo_of_bad (s := { s with ds := ⟨s.ds.cells, s.sp - 1⟩ }) ha)

/-- Settles O43: the pop, then the check of the target. -/
theorem jmpTransfers : Obligations.JmpTransfers :=
  fun _ => ⟨exec_jmp_of_ok, fun hempty => exec_jmp_of_few (by omega), exec_jmp_of_bad⟩

/-- The condition 0 takes no transfer and leaves the target unexamined (R131, R133, D5). -/
theorem conditional_of_untaken {s : State} (hsp : 2 ≤ s.sp) (hc : s.nos = 0) (taken : Word → State → Work State) :
    s.conditional taken = .ok { s with ds := ⟨s.ds.cells, s.sp - 2⟩, ip := s.ip + 1 } := by
  dsimp only [State.sp] at hsp
  have hcond : conditionHolds (s.ds.peek 1) = false := by
    rw [← Bool.not_eq_true, conditionHolds_iff]
    exact not_not_intro hc
  simp (disch := first | omega | (dsimp only; omega)) only [State.conditional, dsPop_of_pos, work_ok_bind,
    peek_count_sub, hcond]
  rfl

theorem exec_cjmp_of_untaken {s : State} (hsp : 2 ≤ s.sp) (hc : s.nos = 0) :
    exec .cjmp s = .next { s with ds := ⟨s.ds.cells, s.sp - 2⟩, ip := s.ip + 1 } :=
  congrArg s.commit (conditional_of_untaken hsp hc _)

theorem exec_cjmp_of_few {s : State} (h : s.sp < 2) :
    exec .cjmp s = .next (s.takeFault (.stackUnderflow .data .pop)) :=
  exec_of_few (needsWords_conditional _) (fun _ => rfl) h

theorem exec_cjmp_of_bad {s : State} (hsp : 2 ≤ s.sp) (hc : s.nos ≠ 0) (ha : ¬TargetOk s s.tos) :
    exec .cjmp s = .next (s.takeFault (.memoryOutOfRange .target s.tos)) := by
  rw [exec, execCjmp, conditional_of_taken hsp hc]
  exact congrArg s.commit (jumpTo_of_bad (s := { s with ds := ⟨s.ds.cells, s.sp - 2⟩ }) ha)

/-- Settles O44: the condition decides whether the target is looked at. -/
theorem cjmpTransfersOnCondition : Obligations.CjmpTransfersOnCondition :=
  fun _ => ⟨exec_cjmp_of_taken, exec_cjmp_of_untaken, exec_cjmp_of_few, exec_cjmp_of_bad⟩

theorem exec_call_of_one {s : State} (hsp : 1 ≤ s.sp) :
    exec .call s = s.commit (State.callTo s.tos { s with ds := ⟨s.ds.cells, s.sp - 1⟩ }) := by
  rw [exec, execCall, dsPop_of_pos hsp]
  rfl

theorem exec_call_of_ok {s : State} (hsp : 1 ≤ s.sp) (ha : TargetOk s s.tos) (hroom : s.rp ≠ s.cfg.rsCap) :
    exec .call s = .next { s with
      ds := ⟨s.ds.cells, s.sp - 1⟩, rs := ⟨s.rs.cells.set s.rp (zext32 (s.ip + 1)), s.rp + 1⟩,
      ip := s.tos.toInt.toNat } := by
  rw [exec_call_of_one hsp]
  exact congrArg s.commit (callTo_of_ok (s := { s with ds := ⟨s.ds.cells, s.sp - 1⟩ }) ha hroom)

theorem exec_call_of_few {s : State} (h : s.sp < 1) :
    exec .call s = .next (s.takeFault (.stackUnderflow .data .pop)) :=
  exec_of_few needsWords_one (fun _ => rfl) h

theorem exec_call_of_bad {s : State} (hsp : 1 ≤ s.sp) (ha : ¬TargetOk s s.tos) :
    exec .call s = .next (s.takeFault (.memoryOutOfRange .target s.tos)) := by
  rw [exec_call_of_one hsp]
  exact congrArg s.commit (callTo_of_bad (s := { s with ds := ⟨s.ds.cells, s.sp - 1⟩ }) ha)

theorem exec_call_of_full {s : State} (hsp : 1 ≤ s.sp) (ha : TargetOk s s.tos) (hfull : s.rp = s.cfg.rsCap) :
    exec .call s = .next (s.takeFault (.stackOverflow .ret .push)) := by
  rw [exec_call_of_one hsp]
  exact congrArg s.commit (callTo_of_full (s := { s with ds := ⟨s.ds.cells, s.sp - 1⟩ }) ha hfull)

/-- Settles O45: the pop, the check of the target, the push of the return address, in this order. -/
theorem callSavesReturnAddress : Obligations.CallSavesReturnAddress :=
  fun _ _ => ⟨fun hsp ha hroom => exec_call_of_ok hsp ha (Nat.ne_of_lt hroom),
    fun hempty => exec_call_of_few (by omega), exec_call_of_bad, exec_call_of_full⟩

theorem exec_ccall_of_untaken {s : State} (hsp : 2 ≤ s.sp) (hc : s.nos = 0) :
    exec .ccall s = .next { s with ds := ⟨s.ds.cells, s.sp - 2⟩, ip := s.ip + 1 } :=
  congrArg s.commit (conditional_of_untaken hsp hc _)

theorem exec_ccall_of_few {s : State} (h : s.sp < 2) :
    exec .ccall s = .next (s.takeFault (.stackUnderflow .data .pop)) :=
  exec_of_few (needsWords_conditional _) (fun _ => rfl) h

theorem exec_ccall_of_bad {s : State} (hsp : 2 ≤ s.sp) (hc : s.nos ≠ 0) (ha : ¬TargetOk s s.tos) :
    exec .ccall s = .next (s.takeFault (.memoryOutOfRange .target s.tos)) := by
  rw [exec, execCcall, conditional_of_taken hsp hc]
  exact congrArg s.commit (callTo_of_bad (s := { s with ds := ⟨s.ds.cells, s.sp - 2⟩ }) ha)

theorem exec_ccall_of_full {s : State} (hsp : 2 ≤ s.sp) (hc : s.nos ≠ 0) (ha : TargetOk s s.tos)
    (hfull : s.rp = s.cfg.rsCap) : exec .ccall s = .next (s.takeFault (.stackOverflow .ret .push)) := by
  rw [exec, execCcall, conditional_of_taken hsp hc]
  exact congrArg s.commit (callTo_of_full (s := { s with ds := ⟨s.ds.cells, s.sp - 2⟩ }) ha hfull)

/-- Settles O46: taken it is the call of O45 with two pops, untaken the advance of O44. -/
theorem ccallCallsOnCondition : Obligations.CcallCallsOnCondition :=
  fun _ _ => ⟨fun hsp hc ha hroom => exec_ccall_of_taken hsp hc ha (Nat.ne_of_lt hroom), exec_ccall_of_untaken,
    exec_ccall_of_few, exec_ccall_of_bad, exec_ccall_of_full⟩

theorem exec_ret_of_one {s : State} (hrp : 1 ≤ s.rp) :
    exec .ret s = s.commit (State.jumpTo (s.rs.peek 0) { s with rs := ⟨s.rs.cells, s.rp - 1⟩ }) := by
  rw [exec, execRet, rsPop_of_pos hrp]
  rfl

theorem exec_ret_of_ok {s : State} (hrp : 1 ≤ s.rp) (ha : TargetOk s (s.rs.peek 0)) :
    exec .ret s = .next { s with rs := ⟨s.rs.cells, s.rp - 1⟩, ip := (s.rs.peek 0).toInt.toNat } := by
  rw [exec_ret_of_one hrp]
  exact congrArg s.commit (jumpTo_of_ok (s := { s with rs := ⟨s.rs.cells, s.rp - 1⟩ }) ha)

theorem exec_ret_of_empty {s : State} (h : s.rp = 0) :
    exec .ret s = .next (s.takeFault (.stackUnderflow .ret .pop)) :=
  exec_of_return_empty h rfl

theorem exec_ret_of_bad {s : State} (hrp : 1 ≤ s.rp) (ha : ¬TargetOk s (s.rs.peek 0)) :
    exec .ret s = .next (s.takeFault (.memoryOutOfRange .target (s.rs.peek 0))) := by
  rw [exec_ret_of_one hrp]
  exact congrArg s.commit (jumpTo_of_bad (s := { s with rs := ⟨s.rs.cells, s.rp - 1⟩ }) ha)

/-- Settles O47: the pop, then the check of the target. -/
theorem returnPopsIntoIp : Obligations.ReturnPopsIntoIp :=
  fun _ => ⟨exec_ret_of_ok, exec_ret_of_empty, exec_ret_of_bad⟩

end Sys2Proof.Machine
end

/-! # 43_memory_access.md, instruction by instruction -/

section
namespace Sys2Proof.Machine

theorem exec_fetch_of_few {s : State} (h : s.sp < 1) :
    exec .fetch s = .next (s.takeFault (.stackUnderflow .data .pop)) :=
  exec_of_few needsWords_one (fun _ => rfl) h

theorem exec_fetch_of_bad {s : State} (hsp : 1 ≤ s.sp) (ha : ¬TargetOk s s.tos) :
    exec .fetch s = .next (s.takeFault (.memoryOutOfRange .fetch s.tos)) := by
  have hcheck : State.checkAddr { s with ds := ⟨s.ds.cells, s.ds.count - 1⟩ } (s32 (s.ds.peek 0)) .fetch =
      .error (.memoryOutOfRange .fetch (wrap32 (s32 s.tos))) := checkAddr_of_bad ha _
  simp only [exec, execFetch, dsPop_of_pos hsp, work_ok_bind, hcheck, wrap32_s32, work_error_bind, commit_error]

/-- Settles O48: after its own pop `fetch` always has room. -/
theorem fetchPushesTheCell : Obligations.FetchPushesTheCell :=
  fun _ hwf => ⟨fun hsp => exec_fetch_of_ok hsp hwf.dsCount, fun hempty => exec_fetch_of_few (by omega),
    exec_fetch_of_bad⟩

/-- Settles O49: the one write is at the address of TOS (`Memory.read_write_same`, `Memory.read_write_other`). -/
theorem storeWritesOneCell : Obligations.StoreWritesOneCell :=
  fun _ hwf => ⟨fun hsp ha => ⟨_, exec_store_of_ok hsp ha, Memory.read_write_same hwf.memOk _ _,
    fun _ hne => Memory.read_write_other hwf.memOk hne _⟩, exec_store_of_few, exec_store_of_bad⟩

/-- Settles O24: the cell reads as the stored word, and `fetch` leaves the cell it reads on top (`exec_fetch_tos`). -/
theorem storeThenFetchGivesStoredWord : Obligations.StoreThenFetchGivesStoredWord := by
  intro s hwf hsp ha
  refine ⟨_, exec_store_of_ok hsp ha, fun u huwf hcfg hmem husp htos => ?_⟩
  have hua : TargetOk u u.tos := by rw [TargetOk, htos, hcfg]; exact ha
  obtain ⟨v, hv, -, hvtos⟩ := exec_fetch_tos huwf husp hua
  exact ⟨v, hv, by rw [hvtos, hmem, htos, Memory.read_write_same hwf.memOk]⟩

/-- Settles O25: `ip + 1` is a valid address, so this is the case of O26 in which the very next step fetches the
cell. -/
theorem storedInstructionRunsNext : Obligations.StoredInstructionRunsNext := by
  intro s hwf hrun hip hread hsp htos
  obtain ⟨m, hstep, -, hnext, -⟩ := storeIsSeenByEveryLaterFetch s hwf hrun (by omega) hread hsp (by omega)
  exact ⟨_, hstep, rfl, hrun, hnext (by omega)⟩

end Sys2Proof.Machine
end

/-! # 44_arithmetic.md to 46_bitwise_shift.md: the values of the two-operand instructions -/

section
namespace Sys2Proof.Machine

/-- The schema of a `( a b -- r )` instruction holds of one whose work is `binary f` and whose values `f` gives. -/
theorem binaryEffect_of_value {i : Instr} {f : Word → Word → Word} {value : Word → Word → Word → Prop}
    (hx : ∀ s, exec i s = s.commit (s.binary f)) (hvalue : ∀ a b, value a b (f a b)) : BinaryEffect i value :=
  fun s hwf => ⟨fun hsp => ⟨_, hvalue s.nos s.tos, by rw [hx, binary_of_two hsp hwf.dsCount, commit_ok]⟩,
    exec_of_few (needsWords_binary f) hx⟩

/-- Settles O50: the value is a wrapped sum (`wrap32_toNat`). -/
theorem addWraps : Obligations.AddWraps :=
  binaryEffect_of_value (f := addValue) (fun _ => rfl) fun _ _ => wrap32_toNat _

/-- Settles O51: the value is a wrapped difference (`wrap32_toNat`). -/
theorem subWraps : Obligations.SubWraps :=
  binaryEffect_of_value (f := subValue) (fun _ => rfl) fun _ _ => wrap32_toNat _

/-- Settles O52: the value is a wrapped product (`wrap32_toNat`). -/
theorem mulWraps : Obligations.MulWraps :=
  binaryEffect_of_value (f := mulValue) (fun _ => rfl) fun _ _ => wrap32_toNat _

theorem exec_divmod_of_few {s : State} (h : s.sp < 2) :
    exec .divmod s = .next (s.takeFault (.stackUnderflow .data .pop)) :=
  exec_of_few (.pop fun _ => needsWords_one) (fun _ => rfl) h

theorem exec_divmod_of_zero {s : State} (hsp : 2 ≤ s.sp) (hb : s.tos = 0) :
    exec .divmod s = .next (s.takeFault .divisionByZero) := by
  dsimp only [State.sp] at hsp
  have hzero : s32 (s.ds.peek 0) = 0 := s32_eq_zero.mpr hb
  simp (disch := first | omega | (dsimp only; omega)) only [exec, execDivmod, dsPop_of_pos, work_ok_bind, hzero,
    if_true, work_throw, work_error_bind, commit_error]

/-- With a divisor other than 0 the quotient goes to the place of NOS and the remainder on top. -/
theorem exec_divmod_of_ok {s : State} (hsp : 2 ≤ s.sp) (hcap : s.sp ≤ s.cfg.dsCap) (hb : s.tos ≠ 0) :
    exec .divmod s = .next { s with
      ds := ⟨(s.ds.cells.set (s.sp - 2) (quotientValue s.nos s.tos)).set (s.sp - 1) (remainderValue s.nos s.tos), s.sp⟩,
      ip := s.ip + 1 } := by
  dsimp only [State.sp] at hsp hcap
  have hne : s32 (s.ds.peek 0) ≠ 0 := mt s32_eq_zero.mp hb
  have htwo : s.ds.count - 1 - 1 = s.ds.count - 2 := by omega
  have hone : s.ds.count - 2 + 1 = s.ds.count - 1 := by omega
  have hback : s.ds.count - 1 + 1 = s.ds.count := by omega
  simp (disch := first | omega | (dsimp only; omega)) only [exec, execDivmod, dsPop_of_pos, dsPush_of_room,
    work_ok_bind, peek_count_sub, hne, if_false, work_pure, htwo, hone, hback]
  rfl

/-- Settles O53: quotient and remainder are `tdiv` and `trem` of the signed operands (`trem_abs_lt`, `trem_sign`). -/
theorem divmodTruncates : Obligations.DivmodTruncates := by
  refine fun s hwf => ⟨fun hsp hb => ?_, exec_divmod_of_few, exec_divmod_of_zero⟩
  have hdivision : s.nos.toInt = tdiv (s32 s.nos) (s32 s.tos) * s.tos.toInt + trem (s32 s.nos) (s32 s.tos) :=
    (add_sub_cancel _ _).symm
  exact ⟨_, _, hdivision, trem_abs_lt (mt s32_eq_zero.mp hb), trem_sign, exec_divmod_of_ok hsp hwf.dsCount hb⟩

theorem boolWord_decide (p : Prop) [Decidable p] : boolWord (decide p) = truthWord p := by
  by_cases h : p
  · rw [truthWord_of_true h, decide_eq_true h]
    rfl
  · rw [truthWord_of_false h, decide_eq_false h]
    rfl

/-- Settles O54: both values are `boolWord` of the comparison (`boolWord_decide`). -/
theorem eqAndNeCompareWords : Obligations.EqAndNeCompareWords :=
  ⟨binaryEffect_of_value (f := eqValue) (fun _ => rfl) fun a b => boolWord_decide (a = b),
    binaryEffect_of_value (f := neValue) (fun _ => rfl) fun a b => by
      rw [← boolWord_decide, decide_not]
      rfl⟩

/-- Settles O55: both values are `boolWord` of the signed comparison (`boolWord_decide`). -/
theorem ltAndGtCompareSigned : Obligations.LtAndGtCompareSigned :=
  ⟨binaryEffect_of_value (f := ltValue) (fun _ => rfl) fun a b => boolWord_decide (a.toInt < b.toInt),
    binaryEffect_of_value (f := gtValue) (fun _ => rfl) fun a b => boolWord_decide (b.toInt < a.toInt)⟩

/-- Settles O56: the bits of `&`, `|`, `^` are the library's. -/
theorem bitwiseActsOnEachBit : Obligations.BitwiseActsOnEachBit :=
  ⟨binaryEffect_of_value (f := andValue) (fun _ => rfl) fun _ _ _ _ => BitVec.getLsbD_and,
    binaryEffect_of_value (f := orValue) (fun _ => rfl) fun _ _ _ _ => BitVec.getLsbD_or,
    binaryEffect_of_value (f := xorValue) (fun _ => rfl) fun _ _ _ _ => BitVec.getLsbD_xor⟩

theorem shiftValue_of_pos {b : Word} (h : 0 < b.toInt) (a : Word) :
    ((shiftValue a b).toNat : Int) = a.toInt * 2 ^ b.toInt.toNat % 2 ^ 32 := by
  have hleft : shiftValue a b = shiftLeftValue a b.toInt.toNat := if_pos h
  rw [hleft, shiftLeftValue_eq, wrap32_toNat, s32]

theorem shiftValue_of_nonpos {b : Word} (h : b.toInt ≤ 0) (a : Word) :
    (shiftValue a b).toInt = ⌊(a.toInt : ℚ) / 2 ^ (-b.toInt).toNat⌋ := by
  have hright : shiftValue a b = shiftRightValue a (-b.toInt).toNat := if_neg (Int.not_lt.mpr h)
  have hfloor := Rat.floor_intCast_div_natCast a.toInt (2 ^ (-b.toInt).toNat)
  push_cast at hfloor
  rw [hright, hfloor]
  exact shiftRightValue_eq a _

/-- Settles O57: a positive count multiplies (`shiftLeftValue_eq`), any other divides with floor
(`shiftRightValue_eq`). -/
theorem shiftIsMathematical : Obligations.ShiftIsMathematical :=
  binaryEffect_of_value (f := shiftValue) (fun _ => rfl) fun a _ =>
    ⟨fun h => shiftValue_of_pos h a, fun h => shiftValue_of_nonpos h a⟩

end Sys2Proof.Machine
end

/-! # 47_syscall.md, instruction by instruction -/

section
namespace Sys2Proof.Machine

theorem exec_syscall0_of_one {s : State} (hsp : 1 ≤ s.sp) :
    exec .syscall0 s = .next { s with
      ds := ⟨s.ds.cells, s.sp - 1⟩, ip := s.ip + 1, events := s.events ++ [⟨s.tos, 0, 0, 0, 0, s.context⟩] } := by
  rw [exec, execSyscall0, dsPop_of_pos hsp]
  rfl

theorem exec_syscall1_of_two {s : State} (hsp : 2 ≤ s.sp) :
    exec .syscall1 s = .next { s with
      ds := ⟨s.ds.cells, s.sp - 2⟩, ip := s.ip + 1, events := s.events ++ [⟨s.tos, s.nos, 0, 0, 0, s.context⟩] } := by
  dsimp only [State.sp] at hsp
  simp (disch := first | omega | (dsimp only; omega)) only [exec, execSyscall1, dsPop_of_pos, work_ok_bind,
    peek_count_sub]
  rfl

theorem exec_syscall2_of_three {s : State} (hsp : 3 ≤ s.sp) :
    exec .syscall2 s = .next { s with
      ds := ⟨s.ds.cells, s.sp - 3⟩, ip := s.ip + 1,
      events := s.events ++ [⟨s.tos, s.ds.peek 2, s.nos, 0, 0, s.context⟩] } := by
  dsimp only [State.sp] at hsp
  simp (disch := first | omega | (dsimp only; omega)) only [exec, execSyscall2, dsPop_of_pos, work_ok_bind,
    peek_count_sub]
  rfl

theorem exec_syscall3_of_four {s : State} (hsp : 4 ≤ s.sp) :
    exec .syscall3 s = .next { s with
      ds := ⟨s.ds.cells, s.sp - 4⟩, ip := s.ip + 1,
      events := s.events ++ [⟨s.tos, s.ds.peek 3, s.ds.peek 2, s.nos, 0, s.context⟩] } := by
  dsimp only [State.sp] at hsp
  simp (disch := first | omega | (dsimp only; omega)) only [exec, execSyscall3, dsPop_of_pos, work_ok_bind,
    peek_count_sub]
  rfl

theorem exec_syscall4_of_five {s : State} (hsp : 5 ≤ s.sp) :
    exec .syscall4 s = .next { s with
      ds := ⟨s.ds.cells, s.sp - 5⟩, ip := s.ip + 1,
      events := s.events ++ [⟨s.tos, s.ds.peek 4, s.ds.peek 3, s.ds.peek 2, s.nos, s.context⟩] } := by
  dsimp only [State.sp] at hsp
  simp (disch := first | omega | (dsimp only; omega)) only [exec, execSyscall4, dsPop_of_pos, work_ok_bind,
    peek_count_sub]
  rfl

/-- Settles O58: the `k`-th pop takes the word that was `k` below the top (`peek_count_sub`). -/
theorem syscallsSendArgumentsInOrder : Obligations.SyscallsSendArgumentsInOrder :=
  fun _ => ⟨exec_syscall0_of_one, exec_syscall1_of_two, exec_syscall2_of_three, exec_syscall3_of_four,
    exec_syscall4_of_five⟩

theorem exec_syscall0_of_few {s : State} (h : s.sp < 1) :
    exec .syscall0 s = .next (s.takeFault (.stackUnderflow .data .pop)) :=
  exec_of_few needsWords_one (fun _ => rfl) h

theorem exec_syscall1_of_few {s : State} (h : s.sp < 2) :
    exec .syscall1 s = .next (s.takeFault (.stackUnderflow .data .pop)) :=
  exec_of_few (.pop fun _ => needsWords_one) (fun _ => rfl) h

theorem exec_syscall2_of_few {s : State} (h : s.sp < 3) :
    exec .syscall2 s = .next (s.takeFault (.stackUnderflow .data .pop)) :=
  exec_of_few (.pop fun _ => .pop fun _ => needsWords_one) (fun _ => rfl) h

theorem exec_syscall3_of_few {s : State} (h : s.sp < 4) :
    exec .syscall3 s = .next (s.takeFault (.stackUnderflow .data .pop)) :=
  exec_of_few (.pop fun _ => .pop fun _ => .pop fun _ => needsWords_one) (fun _ => rfl) h

theorem exec_syscall4_of_few {s : State} (h : s.sp < 5) :
    exec .syscall4 s = .next (s.takeFault (.stackUnderflow .data .pop)) :=
  exec_of_few (.pop fun _ => .pop fun _ => .pop fun _ => .pop fun _ => needsWords_one) (fun _ => rfl) h

/-- Settles O59: `syscallN` begins with `N + 1` pops (`NeedsWords.pop`), and fault entry leaves the trace. -/
theorem syscallsUnderflowSendNothing : Obligations.SyscallsUnderflowSendNothing :=
  fun _ => ⟨exec_syscall0_of_few, exec_syscall1_of_few, exec_syscall2_of_few, exec_syscall3_of_few,
    exec_syscall4_of_few, rfl⟩

end Sys2Proof.Machine
end

/-! # 60_exceptions.md: Table M, row by row (R228) -/

/-! ## The columns: what an instruction owes to each (R227) -/

section
namespace Sys2Proof.Machine

/-- An instruction does what a row of Table M says: it takes the fault the row gives, or, where the row gives none,
commits with the fault record unchanged, halting exactly if it is `stop`. -/
def FollowsRow (i : Instr) (s : State) : Option FaultCause → Prop
  | some c => exec i s = .next (s.takeFault c)
  | none => ∃ t, exec i s = .next t ∧ t.fault = s.fault ∧ t.run = if i = .stop then .halted else s.run

variable {i : Instr} {s : State} {r : Option FaultCause}

/-- A last column: after it there is no fault left. -/
theorem FollowsRow.last (h : FollowsRow i s (r <|> none)) : FollowsRow i s r := by
  cases r <;> exact h

theorem FollowsRow.needsData {n : Nat}
    (hfew : s.sp < n → exec i s = .next (s.takeFault (.stackUnderflow .data .pop)))
    (h : n ≤ s.sp → FollowsRow i s r) : FollowsRow i s (s.needsData n <|> r) := by
  rcases Nat.lt_or_ge s.sp n with hn | hn
  · rw [needsData_few hn]
    exact hfew hn
  · rw [needsData_enough hn]
    exact h hn

theorem FollowsRow.needsReturn
    (hempty : s.rp = 0 → exec i s = .next (s.takeFault (.stackUnderflow .ret .pop)))
    (h : 1 ≤ s.rp → FollowsRow i s r) : FollowsRow i s (s.needsReturn 1 <|> r) := by
  rcases Nat.lt_or_ge s.rp 1 with hn | hn
  · rw [needsReturn_few hn]
    exact hempty (Nat.lt_one_iff.mp hn)
  · rw [needsReturn_enough hn]
    exact h hn

theorem FollowsRow.badAddr {x : Word} {k : Access}
    (hbad : ¬TargetOk s x → exec i s = .next (s.takeFault (.memoryOutOfRange k x)))
    (h : TargetOk s x → FollowsRow i s r) : FollowsRow i s (s.badAddr x k <|> r) := by
  by_cases ha : TargetOk s x
  · rw [badAddr_ok ha]
    exact h ha
  · rw [badAddr_bad ha]
    exact hbad ha

theorem FollowsRow.fullData
    (hfull : s.sp = s.cfg.dsCap → exec i s = .next (s.takeFault (.stackOverflow .data .push)))
    (h : s.sp ≠ s.cfg.dsCap → FollowsRow i s r) : FollowsRow i s (s.fullData <|> r) := by
  by_cases hn : s.sp = s.cfg.dsCap
  · rw [fullData_full hn]
    exact hfull hn
  · rw [fullData_room hn]
    exact h hn

theorem FollowsRow.fullReturn
    (hfull : s.rp = s.cfg.rsCap → exec i s = .next (s.takeFault (.stackOverflow .ret .push)))
    (h : s.rp ≠ s.cfg.rsCap → FollowsRow i s r) : FollowsRow i s (s.fullReturn <|> r) := by
  by_cases hn : s.rp = s.cfg.rsCap
  · rw [fullReturn_full hn]
    exact hfull hn
  · rw [fullReturn_room hn]
    exact h hn

/-- A column that an instruction looks at on a condition, the last one of its row. -/
theorem FollowsRow.ite {p : Prop} [Decidable p] (hp : p → FollowsRow i s r) (hn : ¬p → FollowsRow i s none) :
    FollowsRow i s (if p then r else none) := by
  by_cases h : p
  · rw [if_pos h]
    exact hp h
  · rw [if_neg h]
    exact hn h

end Sys2Proof.Machine
end

/-! ## The rows -/

section
namespace Sys2Proof.Machine

/-- The row of every two-operand instruction without a further check. -/
theorem followsRow_binary {i : Instr} {s : State} {f : Word → Word → Word} (hwf : s.wf) (hi : i ≠ .stop)
    (hx : ∀ s, exec i s = s.commit (s.binary f)) : FollowsRow i s (s.needsData 2) :=
  .last (.needsData (exec_of_few (needsWords_binary f) hx) fun hsp =>
    ⟨_, (hx s).trans (congrArg s.commit (binary_of_two hsp hwf.dsCount f)), rfl, (if_neg hi).symm⟩)

/-- The row of `lit`: its immediate is the one operand an instruction fetches. -/
theorem followsRow_lit {s : State} (hip : s.ip < s.cfg.memWords) (imm : Word) :
    FollowsRow (.lit imm) s (s.faultTable (.lit imm)) := by
  rw [State.faultTable]
  by_cases himm : s.ip + 1 = s.cfg.memWords
  · rw [if_pos himm]
    exact exec_lit_of_outside (Nat.le_of_eq himm.symm) imm
  · rw [if_neg himm]
    have hin : s.ip + 1 < s.cfg.memWords := by omega
    exact .last (.fullData (fun h => exec_lit_of_full hin h imm) fun h => ⟨_, exec_lit_of_room hin h imm, rfl, rfl⟩)

/-- Every instruction does what its row of Table M says. -/
theorem followsRow {s : State} (hwf : s.wf) (hip : s.ip < s.cfg.memWords) (i : Instr) :
    FollowsRow i s (s.faultTable i) := by
  cases i
  case nop => exact ⟨_, nopOnlyAdvances s, rfl, rfl⟩
  case stop => exact ⟨_, stopHaltsInPlace s, rfl, rfl⟩
  case lit imm => exact followsRow_lit hip imm
  case dup =>
    exact .needsData exec_dup_of_few fun hsp => .last (.fullData (exec_dup_of_full hsp) fun h =>
      ⟨_, exec_dup_of_room hsp (Nat.lt_of_le_of_ne hwf.dsCount h), rfl, rfl⟩)
  case drop => exact .last (.needsData exec_drop_of_few fun hsp => ⟨_, exec_drop_of_one hsp, rfl, rfl⟩)
  case swap =>
    exact .last (.needsData exec_swap_of_few fun hsp => ⟨_, exec_swap_of_two hsp hwf.dsCount, rfl, rfl⟩)
  case push =>
    exact .needsData exec_push_of_few fun hsp => .last (.fullReturn (exec_push_of_full hsp) fun h =>
      ⟨_, exec_push_of_room hsp h, rfl, rfl⟩)
  case pop =>
    exact .needsReturn exec_pop_of_empty fun hrp => .last (.fullData (exec_pop_of_full hrp) fun h =>
      ⟨_, exec_pop_of_room hrp h, rfl, rfl⟩)
  case jmp =>
    exact .needsData exec_jmp_of_few fun hsp => .last (.badAddr (exec_jmp_of_bad hsp) fun ha =>
      ⟨_, exec_jmp_of_ok hsp ha, rfl, rfl⟩)
  case cjmp =>
    exact .needsData exec_cjmp_of_few fun hsp => .ite
      (fun hc => .last (.badAddr (exec_cjmp_of_bad hsp hc) fun ha => ⟨_, exec_cjmp_of_taken hsp hc ha, rfl, rfl⟩))
      fun hc => ⟨_, exec_cjmp_of_untaken hsp (not_not.mp hc), rfl, rfl⟩
  case call =>
    exact .needsData exec_call_of_few fun hsp => .badAddr (exec_call_of_bad hsp) fun ha =>
      .last (.fullReturn (exec_call_of_full hsp ha) fun h => ⟨_, exec_call_of_ok hsp ha h, rfl, rfl⟩)
  case ccall =>
    exact .needsData exec_ccall_of_few fun hsp => .ite
      (fun hc => .badAddr (exec_ccall_of_bad hsp hc) fun ha => .last (.fullReturn (exec_ccall_of_full hsp hc ha)
        fun h => ⟨_, exec_ccall_of_taken hsp hc ha h, rfl, rfl⟩))
      fun hc => ⟨_, exec_ccall_of_untaken hsp (not_not.mp hc), rfl, rfl⟩
  case ret =>
    exact .needsReturn exec_ret_of_empty fun hrp => .last (.badAddr (exec_ret_of_bad hrp) fun ha =>
      ⟨_, exec_ret_of_ok hrp ha, rfl, rfl⟩)
  case fetch =>
    exact .needsData exec_fetch_of_few fun hsp => .last (.badAddr (exec_fetch_of_bad hsp) fun ha =>
      ⟨_, exec_fetch_of_ok hsp hwf.dsCount ha, rfl, rfl⟩)
  case store =>
    exact .needsData exec_store_of_few fun hsp => .last (.badAddr (exec_store_of_bad hsp) fun ha =>
      ⟨_, exec_store_of_ok hsp ha, rfl, rfl⟩)
  case divmod =>
    refine .needsData exec_divmod_of_few fun hsp => ?_
    by_cases hb : s.tos = 0
    · rw [if_pos hb]
      exact exec_divmod_of_zero hsp hb
    · rw [if_neg hb]
      exact ⟨_, exec_divmod_of_ok hsp hwf.dsCount hb, rfl, rfl⟩
  case syscall0 => exact .last (.needsData exec_syscall0_of_few fun h => ⟨_, exec_syscall0_of_one h, rfl, rfl⟩)
  case syscall1 => exact .last (.needsData exec_syscall1_of_few fun h => ⟨_, exec_syscall1_of_two h, rfl, rfl⟩)
  case syscall2 => exact .last (.needsData exec_syscall2_of_few fun h => ⟨_, exec_syscall2_of_three h, rfl, rfl⟩)
  case syscall3 => exact .last (.needsData exec_syscall3_of_few fun h => ⟨_, exec_syscall3_of_four h, rfl, rfl⟩)
  case syscall4 => exact .last (.needsData exec_syscall4_of_few fun h => ⟨_, exec_syscall4_of_five h, rfl, rfl⟩)
  all_goals exact followsRow_binary hwf (by decide) fun _ => rfl

/-- Settles O15: `followsRow`, read for a row that gives a fault and for one that gives none. -/
theorem instructionFaultsAreTableM : Obligations.InstructionFaultsAreTableM := by
  intro i s hwf hip
  have hrow := followsRow hwf hip i
  exact ⟨fun c hc => by rwa [hc] at hrow, fun hnone => by rwa [hnone] at hrow⟩

end Sys2Proof.Machine
end

/-! # 42_control_transfer.md: calls and returns as pairs (R136) -/

section
namespace Sys2Proof.Machine

/-- The return stack after a call: one word more, the address after the call. -/
def State.rsAfterCall (s : State) : Stack := ⟨s.rs.cells.set s.rp (zext32 (s.ip + 1)), s.rp + 1⟩

/-- A return that finds the words a call left goes to the word after the call, and the words below are those of before
the call. -/
theorem exec_ret_after_call {s u : State} (hwf : s.wf) (hroom : s.rp < s.cfg.rsCap) (hip : s.ip + 1 < s.cfg.memWords)
    (hcfg : u.cfg = s.cfg) (hrp : u.rp = s.rp + 1) (hlive : u.rs.live = s.rsAfterCall.live) :
    exec .ret u = .next { u with rs := ⟨u.rs.cells, s.rp⟩, ip := s.ip + 1 } ∧
      Stack.live ⟨u.rs.cells, s.rp⟩ = s.rs.live := by
  obtain ⟨⟨-, hmem⟩, -⟩ := hwf.cfgOk
  have hcells : s.rs.count < s.rs.cells.length := by rw [hwf.rsCells]; exact hroom
  have htop : u.rs.peek 0 = zext32 (s.ip + 1) :=
    (live_peek (a := s.rsAfterCall) hrp hlive (Nat.succ_pos _)).trans (peek_set hcells _)
  have htarget : (u.rs.peek 0).toInt = ((s.ip + 1 : Nat) : Int) := by
    rw [htop]
    exact s32_zext32 (by omega)
  constructor
  · rw [exec_ret_of_ok (by omega) (by rw [TargetOk, htarget, hcfg]; omega), htarget, Int.toNat_natCast, hrp,
      Nat.add_sub_cancel]
  · have hpop := live_pop u.rs
    dsimp only [State.rp] at hrp
    rw [hlive, hrp, Nat.add_sub_cancel, State.rsAfterCall, live_push hcells] at hpop
    rw [hpop]
    exact List.take_left' (List.length_take_of_le (Nat.le_of_lt hcells))

/-- Settles O27: either call leaves `rsAfterCall`, from which `exec_ret_after_call` returns. -/
theorem callAndReturnBalance : Obligations.CallAndReturnBalance := by
  intro s i hwf hi ha hroom hip
  have hfree : s.rp ≠ s.cfg.rsCap := Nat.ne_of_lt hroom
  have hret : ∀ u : State, u.wf → u.cfg = s.cfg → u.rp = s.rp + 1 → u.rs.live = s.rsAfterCall.live →
      ∃ v, exec .ret u = .next v ∧ v.ip = s.ip + 1 ∧ v.rp = s.rp ∧ v.rs.live = s.rs.live ∧ v.ds = u.ds := by
    intro u _ hcfg hrp hlive
    obtain ⟨hx, hback⟩ := exec_ret_after_call hwf hroom hip hcfg hrp hlive
    exact ⟨_, hx, rfl, rfl, hback, rfl⟩
  rcases hi with ⟨rfl, hsp⟩ | ⟨rfl, hsp, hc⟩
  · exact ⟨_, exec_call_of_ok hsp ha hfree, rfl, rfl, hret⟩
  · exact ⟨_, exec_ccall_of_taken hsp hc ha hfree, rfl, rfl, hret⟩

/-- Work that begins with a pop of the data stack goes on in a state with another data stack. -/
theorem dsPop_bind_sat {s : State} {P : State → Prop} {f : Word × State → Work State}
    (h : ∀ x d, Sat (f (x, { s with ds := d })) P OwnFault) : Sat (s.dsPop >>= f) P OwnFault :=
  (dsPop_sat s).bind fun p hp => by
    rw [hp.2]
    exact h _ _

/-- A conditional transfer takes it, or advances, in a state with another data stack. -/
theorem conditional_sat_of_ds {s : State} {P : State → Prop} {taken : Word → State → Work State}
    (htaken : ∀ x d, Sat (taken x { s with ds := d }) P OwnFault)
    (huntaken : ∀ d, P (State.advance { s with ds := d })) :
    Sat (s.conditional taken) P OwnFault :=
  dsPop_bind_sat fun x _ => dsPop_bind_sat fun c d => by
    show Sat (if conditionHolds c then taken x { s with ds := d } else pure (State.advance { s with ds := d }))
      P OwnFault
    split
    · exact htaken x d
    · exact huntaken d

/-- What the work of an instruction answers is what the instruction commits, unless it faults. -/
theorem Sat.of_exec {i : Instr} {s t : State} {w : Work State} {P : State → Prop} {E : FaultCause → Prop}
    (hs : Sat w P E) (hw : exec i s = s.commit w) (h : exec i s = .next t) : P t ∨ ∃ c, t = s.takeFault c := by
  rw [hw] at h
  rcases commit_cases h with rfl | ⟨c, -, ht⟩
  · exact .inl hs
  · exact .inr ⟨c, ht⟩

theorem callTo_rsAfterCall (s : State) (x : Word) (d : Stack) :
    Sat (State.callTo x { s with ds := d }) (fun t => t.rs = s.rsAfterCall) OwnFault :=
  (checkAddr_sat _ _ _).bind fun _ _ => (rsPush_sat _ _).bind fun t ht => by
    rw [ht.2]
    rfl

theorem jumpTo_rs_eq (s : State) (x : Word) (d : Stack) :
    Sat (State.jumpTo x { s with ds := d }) (fun t => t.rs = s.rs) OwnFault :=
  (checkAddr_sat _ _ _).bind fun _ _ => rfl

/-- A call that leaves another return stack leaves `rsAfterCall`. -/
theorem exec_call_rs {i : Instr} (hi : i = .call ∨ i = .ccall) {s t : State} (h : exec i s = .next t) :
    t.rs = s.rs ∨ t.rs = s.rsAfterCall := by
  have hcall : Sat (s.dsPop >>= fun p => p.2.callTo p.1) (fun t => t.rs = s.rs ∨ t.rs = s.rsAfterCall) OwnFault :=
    dsPop_bind_sat fun x d => (callTo_rsAfterCall s x d).mono fun _ => .inr
  have hccall : Sat (s.conditional State.callTo) (fun t => t.rs = s.rs ∨ t.rs = s.rsAfterCall) OwnFault :=
    conditional_sat_of_ds (fun x d => (callTo_rsAfterCall s x d).mono fun _ => .inr) fun _ => .inl rfl
  have hfault : (∃ c, t = s.takeFault c) → t.rs = s.rs := by
    rintro ⟨c, rfl⟩
    rfl
  rcases hi with rfl | rfl
  · exact (hcall.of_exec rfl h).elim id fun hf => .inl (hfault hf)
  · exact (hccall.of_exec rfl h).elim id fun hf => .inl (hfault hf)

/-- Settles O29: a jump works on the data stack and `ip` alone (`jumpTo_rs_eq`). -/
theorem jumpsKeepReturnStack : Obligations.JumpsKeepReturnStack := by
  intro s t h
  have hjmp : Sat (s.dsPop >>= fun p => p.2.jumpTo p.1) (fun t => t.rs = s.rs) OwnFault :=
    dsPop_bind_sat (jumpTo_rs_eq s)
  have hcjmp : Sat (s.conditional State.jumpTo) (fun t => t.rs = s.rs) OwnFault :=
    conditional_sat_of_ds (jumpTo_rs_eq s) fun _ => rfl
  have hcases : t.rs = s.rs ∨ ∃ c, t = s.takeFault c := h.elim (hjmp.of_exec rfl) (hcjmp.of_exec rfl)
  rcases hcases with hrs | ⟨c, rfl⟩
  · exact hrs
  · rfl

/-- Steps that stay above a depth keep the words up to it (`Stack.Moves.take`). -/
theorem runsAbove_take_cells {d n : Nat} {t u : State} (h : RunsAbove d n t u) (hd : d < t.rp) :
    u.cfg = t.cfg ∧ u.rs.cells.take (d + 1) = t.rs.cells.take (d + 1) := by
  induction n generalizing t with
  | zero =>
    obtain rfl : u = t := h
    exact ⟨rfl, rfl⟩
  | succ n ih =>
    obtain ⟨v, hstep, hv, hrest⟩ := h
    obtain ⟨hcfg, htake⟩ := ih hrest hv
    exact ⟨hcfg.trans (stepKeepsParametersAndContext t v hstep).1, htake.trans ((step_rs hstep).take hd)⟩

/-- Settles O28: the steps between keep the words the call left (`runsAbove_take_cells`), so the return finds them
(`exec_ret_after_call`). -/
theorem matchingReturnRestoresReturnStack : Obligations.MatchingReturnRestoresReturnStack := by
  intro s t u n hwf hrun hip hcall hstep htrp habove hurun hret hurp
  obtain ⟨i, hi, hfetch⟩ : ∃ i, (i = .call ∨ i = .ccall) ∧ s.fetchInstr = .ok i :=
    hcall.elim (fun h => ⟨_, .inl rfl, h⟩) fun h => ⟨_, .inr rfl, h⟩
  have htrs : t.rs = s.rsAfterCall := by
    rw [step_of_fetch_ok hrun hfetch] at hstep
    refine (exec_call_rs hi hstep).resolve_left fun hsame => ?_
    rw [State.rp, hsame] at htrp
    exact Nat.ne_add_one _ htrp
  have htcfg : t.cfg = s.cfg := (stepKeepsParametersAndContext s t hstep).1
  have hroom : s.rp < s.cfg.rsCap := by
    have htcap : t.rp ≤ t.cfg.rsCap := (stepKeepsWellFormed s t hwf hstep).rsCount
    rw [htcfg] at htcap
    omega
  obtain ⟨hucfg, htake⟩ := runsAbove_take_cells habove (by omega)
  have hlive : u.rs.live = s.rsAfterCall.live := by
    rw [Stack.live, show u.rs.count = s.rp + 1 from hurp, htake, htrs]
    rfl
  obtain ⟨hx, hback⟩ := exec_ret_after_call hwf hroom hip (hucfg.trans htcfg) hurp hlive
  exact ⟨_, (step_of_fetch_ok hurun hret).trans hx, hurun, rfl, rfl, hback⟩

end Sys2Proof.Machine
end

/-! # 70_reset_and_hazards.md: the host's transactions -/

/-! ## Reset and load (R35, R260, R262) -/

section
namespace Sys2Proof.Machine

/-- The state after reset meets the invariants (R31, R35). -/
theorem resetWith_wf {c : Config} (hc : c.wf) (b : Option BridgeHandle) (x : Context) : (State.resetWith c b x).wf where
  cfgOk := hc
  memOk := ⟨.nil, by simp [State.resetWith]⟩
  memBound := by simp [State.resetWith]
  dsCells := List.length_replicate
  dsCount := Nat.zero_le _
  rsCells := List.length_replicate
  rsCount := Nat.zero_le _
  ipBound := Nat.zero_le _
  faultIff := by simp [State.resetWith]
  faultIp := by simp [State.resetWith]
  eventContext := by simp [State.resetWith]

theorem haltedAtStop_of_running {s : State} (h : s.run = .running) : s.haltedAtStop :=
  fun hhalted => by rw [h] at hhalted; cases hhalted

/-- Settles O11: the default parameters are legal, and `resetWith_wf` holds for all legal ones. -/
theorem resetIsWellFormed : Obligations.ResetIsWellFormed := by
  have hdefault : defaultConfig.wf := by decide
  exact ⟨resetWith_wf hdefault none 0, haltedAtStop_of_running rfl,
    fun c b x hc => ⟨resetWith_wf hc b x, haltedAtStop_of_running rfl⟩⟩

/-- Settles O31: reset gives `State.resetWith`, whose fields are those of Table RV. -/
theorem resetClearsEverything : Obligations.ResetClearsEverything :=
  fun _ _ _ => ⟨_, rfl, fun _ => rfl, rfl, rfl, rfl, rfl, rfl, rfl, rfl, rfl, rfl, rfl, rfl, rfl⟩

/-- After reset a load answers by the length of its image (R262). -/
theorem load_resetWith (c : Config) (b : Option BridgeHandle) (x : Context) (image : List Word) :
    (State.resetWith c b x).load image =
      if image.length ≤ c.memWords then
        .next { State.resetWith c b x with mem := Memory.writeWords [] 0 image, loaded := true }
      else .refused .imageTooLong :=
  if_pos rfl

/-- Settles O32: a load that goes through reads as its image over zeroed memory (`load_read`). -/
theorem loadPlacesTheImage : Obligations.LoadPlacesTheImage := by
  refine ⟨fun c b x image => ⟨fun hfits => ?fits, fun hlong => ?long⟩, fun s image hs => if_neg hs⟩
  case fits =>
    have hload := load_resetWith c b x image
    rw [if_pos hfits] at hload
    exact ⟨_, hload, fun a => load_read hload a⟩
  case long => rw [load_resetWith, if_neg (Nat.not_le.mpr hlong)]

/-- A load that goes through keeps the invariants and leaves the machine Running. -/
theorem load_wf {s t : State} {image : List Word} (h : s.load image = .next t) (hwf : s.wf) :
    t.wf ∧ t.run = .running := by
  obtain ⟨hreset, hfits, rfl⟩ := load_inv h
  exact ⟨{ hwf with
    memOk := Memory.writeWords_wf image hwf.memOk 0
    memBound := Memory.writeWords_bound image hwf.memBound (by omega) }, congrArg State.run hreset⟩

end Sys2Proof.Machine
end

/-! ## The invariants along any host moves (R31, R267) -/

section
namespace Sys2Proof.Machine

/-- Every host move keeps the invariants. -/
theorem transact_wf {s t : State} {m : Transaction} (h : s.transact m = .next t) (hinv : s.wf ∧ s.haltedAtStop) :
    t.wf ∧ t.haltedAtStop := by
  obtain ⟨hwf, hstop⟩ := hinv
  rcases transact_inv h with ⟨b, x, -, rfl⟩ | ⟨image, -, hload⟩ | ⟨-, hstep⟩ | ⟨-, rfl⟩
  · exact ⟨resetWith_wf hwf.cfgOk b x, haltedAtStop_of_running rfl⟩
  · obtain ⟨htwf, hrun⟩ := load_wf hload hwf
    exact ⟨htwf, haltedAtStop_of_running hrun⟩
  · exact ⟨stepKeepsWellFormed s t hwf hstep, haltedStaysAtStop s t hstop hstep⟩
  · exact ⟨hwf, hstop⟩

/-- What every single move keeps, a list of moves keeps. -/
theorem foldlM_option_keeps {σ μ : Type} {P : σ → Prop} {f : σ → μ → Option σ}
    (hf : ∀ s m t, f s m = some t → P s → P t) {ms : List μ} {s t : σ} (h : ms.foldlM f s = some t) (hs : P s) :
    P t := by
  induction ms generalizing s with
  | nil =>
    cases h
    exact hs
  | cons m ms ih =>
    rw [List.foldlM_cons] at h
    obtain ⟨u, hu, hrest⟩ := Option.bind_eq_some_iff.mp h
    exact ih hrest (hf s m u hu hs)

/-- Settles O34: induction over the moves (`foldlM_option_keeps`), each of which keeps the invariants
(`transact_wf`). -/
theorem hostMovesKeepWellFormed : Obligations.HostMovesKeepWellFormed := by
  intro moves s t hwf hstop h
  refine foldlM_option_keeps (P := fun s => s.wf ∧ s.haltedAtStop) (fun u m v hm hu => ?_) h ⟨hwf, hstop⟩
  split at hm
  · rename_i hnext
    cases hm
    exact transact_wf hnext hu
  · cases hm

end Sys2Proof.Machine
end

/-! ## One load, before the first step (R65, R262) -/

section
namespace Sys2Proof.Machine

/-- What a step keeps, steps and inspections keep. -/
theorem afterMoves_keeps {P : State → Prop} (hP : ∀ s t, step s = .next t → P s → P t) {moves : List Transaction}
    (hm : ∀ m ∈ moves, m = .step ∨ m = .inspect) {s t : State} (h : afterMoves moves s = some t) (hs : P s) : P t := by
  induction moves generalizing s with
  | nil =>
    cases h
    exact hs
  | cons m ms ih =>
    obtain ⟨hhead, htail⟩ := List.forall_mem_cons.mp hm
    rcases hhead with rfl | rfl
    · obtain ⟨u, hu⟩ := everyStepAnswersNext s
      rw [afterMoves, State.transact, hu] at h
      exact ih htail h (hP s u hu hs)
    · exact ih htail h hs

/-- What holds after any first step, and every further step keeps, holds after steps and inspections with a step among
them. -/
theorem afterMoves_of_step {P : State → Prop} {s : State} (hfirst : ∀ t, step s = .next t → P t)
    (hP : ∀ s t, step s = .next t → P s → P t) {moves : List Transaction}
    (hm : ∀ m ∈ moves, m = .step ∨ m = .inspect) (hstep : .step ∈ moves) {t : State}
    (h : afterMoves moves s = some t) : P t := by
  induction moves with
  | nil => cases hstep
  | cons m ms ih =>
    obtain ⟨hhead, htail⟩ := List.forall_mem_cons.mp hm
    rcases hhead with rfl | rfl
    · obtain ⟨u, hu⟩ := everyStepAnswersNext s
      rw [afterMoves, State.transact, hu] at h
      exact afterMoves_keeps hP htail h (hfirst u hu)
    · exact ih htail ((List.mem_cons.mp hstep).resolve_left (by simp)) h

/-- A machine that nothing was loaded into: every cell is 0, and unless the word 0 is a `lit`, which alone could push,
both stacks are empty. -/
structure Unloaded (s : State) : Prop where
  mem : s.mem = []
  empty : opOfWord s.cfg.opcodeMap 0 = some .lit ∨ (s.sp = 0 ∧ s.rp = 0)

/-- A machine that nothing was loaded into, after its first step: stopped, or past address 0. -/
def StartedUnloaded (s : State) : Prop := s.run ≠ .running ∨ (s.ip ≠ 0 ∧ Unloaded s)

/-- Every instruction but `nop`, `stop` and `lit` begins with a pop. -/
theorem exec_eq_pop {i : Instr} (hnop : i ≠ .nop) (hstop : i ≠ .stop) (hlit : i.op ≠ .lit) (s : State) :
    (∃ f, exec i s = s.commit (s.dsPop >>= f)) ∨ ∃ f, exec i s = s.commit (s.rsPop >>= f) := by
  cases i
  case nop => exact absurd rfl hnop
  case stop => exact absurd rfl hstop
  case lit => exact absurd rfl hlit
  case pop | ret => exact .inr ⟨_, rfl⟩
  all_goals exact .inl ⟨_, rfl⟩

/-- With both stacks empty every such instruction faults. -/
theorem exec_of_stacks_empty {i : Instr} {s : State} (hnop : i ≠ .nop) (hstop : i ≠ .stop) (hlit : i.op ≠ .lit)
    (hsp : s.sp = 0) (hrp : s.rp = 0) : ∃ c, exec i s = .next (s.takeFault c) := by
  rcases exec_eq_pop hnop hstop hlit s with ⟨f, hf⟩ | ⟨f, hf⟩
  · exact ⟨_, by rw [hf, dsPop_of_empty hsp, work_error_bind, commit_error]⟩
  · exact ⟨_, exec_of_return_empty hrp hf⟩

/-- What is fetched has the mnemonic that the word at `ip` selects (R86). -/
theorem opOfWord_of_fetchInstr {s : State} {i : Instr} (h : s.fetchInstr = .ok i) :
    opOfWord s.cfg.opcodeMap (s.mem.read s.ip) = some i.op := by
  obtain ⟨rest, hwords⟩ := wordsAt_cons s s.ip
  rw [fetchInstr_inside (fetchInstr_ok h), State.decodeAt, hwords] at h
  generalize hd : decode s.cfg.opcodeMap (s.mem.read s.ip :: rest) = d at h
  match d with
  | .ok (j, _) =>
    cases h
    obtain ⟨w, hw, hcons⟩ := decode_inv hd
    rw [(List.cons_eq_cons.mp hcons).1, hw]
  | .error (.illegalOpcode v) => cases h
  | .error .missingImmediate => cases h
  | .error .noWord => cases h

/-- A step of a machine that nothing was loaded into halts, faults, or goes on past address 0. -/
theorem step_unloaded {s t : State} (h : step s = .next t) (hs : s.run ≠ .running ∨ Unloaded s) :
    StartedUnloaded t := by
  rcases step_cases h with ⟨hstop, rfl⟩ | ⟨-, c, rfl⟩ | ⟨hrun, i, hf, hx, hc⟩
  · exact .inl hstop
  · exact .inl (by simp)
  · have hun : Unloaded s := hs.resolve_left (not_not_intro hrun)
    have hop := opOfWord_of_fetchInstr hf
    rw [hun.mem] at hop
    by_cases hlit : i.op = .lit
    · obtain ⟨imm, rfl⟩ := exists_of_op_eq_lit hlit
      have hmem : t.mem = s.mem := exec_mem_of_ne_store (by simp) hx
      exact .inr ⟨by rw [hc.ipLit imm rfl]; omega, hmem.trans hun.mem, .inl (hc.cfg ▸ hop)⟩
    · have hempty : s.sp = 0 ∧ s.rp = 0 := hun.empty.resolve_left fun h0 =>
        hlit (Option.some.inj (hop.symm.trans h0))
      by_cases hnop : i = .nop
      · subst hnop
        cases hx
        exact .inr ⟨Nat.succ_ne_zero _, hun.mem, .inr hempty⟩
      · by_cases hstop : i = .stop
        · subst hstop
          cases hx
          exact .inl (by simp)
        · obtain ⟨c, hfault⟩ := exec_of_stacks_empty hnop hstop hlit hempty.1 hempty.2
          rw [hfault] at hx
          cases hx
          exact .inl (by simp)

/-- Settles O33: after a load its record stays (`load_of_loaded`); after a step without a load the machine never comes
back to the reset state, since its memory is all zeros (`step_unloaded`, `load_of_started`). -/
theorem loadOnlyOnceBeforeTheFirstStep : Obligations.LoadOnlyOnceBeforeTheFirstStep := by
  refine ⟨fun s t u image moves hload hm h again => ?afterLoad, fun c b x u moves hm hstep h image => ?afterStep⟩
  case afterLoad =>
    obtain ⟨-, -, rfl⟩ := load_inv hload
    have hkept : ∀ s t, step s = .next t → s.loaded = true → t.loaded = true := fun s t hst hs => by
      obtain ⟨-, -, -, hloaded⟩ := stepKeepsParametersAndContext s t hst
      rw [hloaded, hs]
    exact load_of_loaded (afterMoves_keeps hkept hm h rfl) again
  case afterStep =>
    have hreset : Unloaded (State.resetWith c b x) := ⟨rfl, .inr ⟨rfl, rfl⟩⟩
    have hstarted : StartedUnloaded u := afterMoves_of_step (fun t ht => step_unloaded ht (.inr hreset))
      (fun s t ht hs => step_unloaded ht (hs.imp id And.right)) hm hstep h
    exact load_of_started (hstarted.symm.imp And.left id) image

end Sys2Proof.Machine
end
